-- ==== Sys2Proof/Word.lean ====
section
/-! DEFINITION. The two value types of the engine: the 32-bit word (00_scope R6, R8, R9) and the 8-bit byte
(00_scope R6, 20_memory R51). Every computation on them stands in Machine/Primitives.lean. -/

namespace Sys2Proof

/-- A 32-bit unsigned word; bit 31 is the most significant (00_scope R6, R8, R9). -/
abbrev Word := BitVec 32

/-- An 8-bit byte, the unit of MSG, PM, BLK and of one character of HEX (00_scope R6, 20_memory R51). -/
abbrev Byte := BitVec 8

end Sys2Proof
end

