-- ==== Sys2Proof/Config.lean ====
section
/-! DEFINITION. What the implementation fixes (the length limit MAXLEN) and the free values of the host's early
reads. The constant tables K and IV are `Config.K` and `Config.IV` of Machine/Tables.lean. -/

namespace Sys2Proof

/-- MAXLEN = 2^61 - 1, the largest message length in bytes with a defined result (00_scope R7, 41_padder R144,
92 D12). -/
def Config.maxLen : Nat := 2 ^ 61 - 1

/-- FREE VALUE (10_state R45, 93 U5): what the host reads from `H[i]` outside phase DONE, "a draw (any value)". An
uninterpreted function of the whole state and the index; nothing can be proved of its values. Log 6. -/
opaque Config.drawWord {σ : Type} (s : σ) (i : Fin 8) : Word

/-- FREE VALUE (10_state R45, 93 U5): what the host reads from `HEX[i]` outside phase DONE. Log 6. -/
opaque Config.drawChar {σ : Type} (s : σ) (i : Fin 64) : Byte

end Sys2Proof
end

