-- ==== Sys2Proof/Syntax.lean ====
section
/-! DEFINITION. The operand ARG and the twelve operations of spec/opcode_table.json. -/

namespace Sys2Proof

/-- The operand the host presents (10_state R29, R30): a byte sequence MSG, which carries its own length `l` (93 U4,
log 4), or anything else, for which `IsByteSeq` is false. -/
inductive Arg where
  | byteSeq (msg : List Byte)
  | notByteSeq
deriving DecidableEq, Repr

/-- The operations, one constructor per row of the table (30_encoding R95). An operation has no register or immediate
field: its index (`t` or `j`) is implicit in the sequencer's state (30_encoding R90, R93). `hash` is written with
its operand, as the spec writes `HASH MSG` (30_encoding R94). -/
inductive Instr where
  | start
  | check
  | pad
  | initH
  | loadblk
  | schedLd
  | schedEx
  | cinit
  | round
  | fold
  | fmt
  | hash (arg : Arg)
deriving DecidableEq, Repr

end Sys2Proof
end

