-- ==== Sys2Proof/WellFormed.lean ====
section
/-! DEFINITION. Which instructions are well formed: an operation without operand always is; HASH MSG is defined for
`l ≤ MAXLEN`, or for an operand that is not a byte sequence (46_hash_operation R248). -/

namespace Sys2Proof

/-- An operand within the length limit: `l ≤ MAXLEN` for a byte sequence (41_padder R144); an operand that is not a
byte sequence has no length (60_exceptions R275). -/
def Arg.withinLimit : Arg → Bool
  | .byteSeq msg => decide (msg.length ≤ Config.maxLen)
  | .notByteSeq => true

/-- Well-formedness of an instruction (30_encoding R93, 46_hash_operation R248). -/
def Instr.wellFormed : Instr → Bool
  | .start => true
  | .check => true
  | .pad => true
  | .initH => true
  | .loadblk => true
  | .schedLd => true
  | .schedEx => true
  | .cinit => true
  | .round => true
  | .fold => true
  | .fmt => true
  | .hash arg => arg.withinLimit

end Sys2Proof
end

