-- ==== Sys2Proof/Decode.lean ====
section
/-! DEFINITION. The PHASE codes (30_encoding R96), the table that maps a code to the operation it enables
(30_encoding R95), the decoder over it, and the encoder. The engine fetches no instructions; the 4-bit PHASE register
is what names its next operation (10_state R34, R36). START and HASH have no code. -/

namespace Sys2Proof

/-- Code 0: resting, after reset (30_encoding R96). -/
def Phase.idle : BitVec 4 := 0b0000#4
/-- Code 1 (30_encoding R96). -/
def Phase.check : BitVec 4 := 0b0001#4
/-- Code 2 (30_encoding R96). -/
def Phase.pad : BitVec 4 := 0b0010#4
/-- Code 3 (30_encoding R96). -/
def Phase.initH : BitVec 4 := 0b0011#4
/-- Code 4 (30_encoding R96). -/
def Phase.loadblk : BitVec 4 := 0b0100#4
/-- Code 5 (30_encoding R96). -/
def Phase.schedLd : BitVec 4 := 0b0101#4
/-- Code 6 (30_encoding R96). -/
def Phase.schedEx : BitVec 4 := 0b0110#4
/-- Code 7 (30_encoding R96). -/
def Phase.cinit : BitVec 4 := 0b0111#4
/-- Code 8 (30_encoding R96). -/
def Phase.round : BitVec 4 := 0b1000#4
/-- Code 9 (30_encoding R96). -/
def Phase.fold : BitVec 4 := 0b1001#4
/-- Code 10 (30_encoding R96). -/
def Phase.fmt : BitVec 4 := 0b1010#4
/-- Code 11: resting, result valid (30_encoding R96). -/
def Phase.done : BitVec 4 := 0b1011#4
/-- Code 12: resting, operand rejected (30_encoding R96). -/
def Phase.fault : BitVec 4 := 0b1100#4

/-- Why a code names no operation. -/
inductive DecodeError where
  /-- IDLE, DONE or FAULT: the engine has no operation of its own and waits for START (30_encoding R96). -/
  | restingPhase
  /-- Codes 13 to 15 are reserved (30_encoding R97). -/
  | reservedCode
  /-- A byte whose upper four bits are not zero holds no 4-bit code. -/
  | notACode
  /-- There is no byte to decode. -/
  | noByte
deriving DecidableEq, Repr

/-- One row of the operation table: the bits of the code that count, what they must be, and the operation. -/
structure OpRow where
  mask : BitVec 4
  pattern : BitVec 4
  op : Instr
deriving DecidableEq, Repr

/-- The ten rows of spec/opcode_table.json that have a code (30_encoding R95). -/
def opTable : List OpRow :=
  [⟨0xF#4, 0x1#4, .check⟩, ⟨0xF#4, 0x2#4, .pad⟩, ⟨0xF#4, 0x3#4, .initH⟩, ⟨0xF#4, 0x4#4, .loadblk⟩,
   ⟨0xF#4, 0x5#4, .schedLd⟩] ++
  [⟨0xF#4, 0x6#4, .schedEx⟩, ⟨0xF#4, 0x7#4, .cinit⟩, ⟨0xF#4, 0x8#4, .round⟩, ⟨0xF#4, 0x9#4, .fold⟩,
   ⟨0xF#4, 0xA#4, .fmt⟩]

/-- IDLE, DONE and FAULT are the three resting phases (10_state R36). -/
def isRestingCode (c : BitVec 4) : Bool :=
  c == Phase.idle || c == Phase.done || c == Phase.fault

/-- Decode a PHASE code: the operation it enables (30_encoding R95), or why there is none. -/
def decodeCode (c : BitVec 4) : Except DecodeError Instr :=
  match opTable.find? (fun r => c &&& r.mask == r.pattern) with
  | some r => .ok r.op
  | none => if isRestingCode c then .error .restingPhase else .error .reservedCode

/-- Decode the first byte of a byte list: its low four bits are the code, its high four bits must be zero (the code is
4 bits wide, log 7). Total on any bytes; the rest of the list is handed back. -/
def decode : List Byte → Except DecodeError (Instr × List Byte)
  | [] => .error .noByte
  | b :: rest =>
    if b.toNat < 16 then
      match decodeCode (b.setWidth 4) with
      | .ok i => .ok (i, rest)
      | .error e => .error e
    else .error .notACode

/-- The code of an operation (30_encoding R95, R96). START is a host command and HASH a pseudo-operation: neither has a
code. -/
def encode : Instr → Option (BitVec 4)
  | .start => none
  | .check => some 0b0001#4
  | .pad => some 0b0010#4
  | .initH => some 0b0011#4
  | .loadblk => some 0b0100#4
  | .schedLd => some 0b0101#4
  | .schedEx => some 0b0110#4
  | .cinit => some 0b0111#4
  | .round => some 0b1000#4
  | .fold => some 0b1001#4
  | .fmt => some 0b1010#4
  | .hash _ => none

/-- The instruction bytes of an operation that has a code: one byte, the code in its low four bits. -/
def encodeBytes (i : Instr) : Option (List Byte) :=
  (encode i).map fun c => [c.setWidth 8]

/-- What the decoder reads from a table row whose bits are `w`; a row of the table has `nbits` bits in whole bytes, and
the code is in the first of them. Every further byte must be zero. -/
def decodeTableWord (nbits w : Nat) : Option Instr :=
  if nbits < 4 ∨ 256 ≤ w then none
  else
    match decode [BitVec.ofNat 8 w] with
    | .ok (i, _) => some i
    | .error _ => none

end Sys2Proof
end

