-- ==== Sys2Proof/Machine/State.lean ====
section
/-! DEFINITION. The state of one engine (10_state R20), the reasons a step can stop, and the state after reset. Plain
data throughout. -/

namespace Sys2Proof.Machine

/-- The eight working variables `a` to `h`, "eight explicitly named fields" (10_state R21). -/
structure Vars where
  a : Word
  b : Word
  c : Word
  d : Word
  e : Word
  f : Word
  g : Word
  h : Word
deriving DecidableEq, Repr

/-- A byte space as a list of (index, byte) cells in one canonical form: indices strictly rising. An index that is not
listed holds no value (10_state R44, log 2). -/
abbrev Memory := List Host.Cell

/-- A move of the host (46_hash_operation R256, 70_reset_and_hazards R300), log 5. -/
inductive HostMove where
  /-- Present an operand; waits for IDLE, DONE or FAULT. -/
  | present (arg : Arg)
  /-- Issue START; waits for IDLE, DONE or FAULT. -/
  | start
  /-- Issue the pseudo-operation HASH with its operand; waits for IDLE, DONE or FAULT. -/
  | hash (arg : Arg)
  /-- Let one step of the engine pass, in any phase. -/
  | wait
  /-- Apply reset, in any phase. -/
  | reset
deriving DecidableEq, Repr

/-- Reasons the machine stops. -/
inductive Fault where
  /-- LOADBLK reads the byte of PM at this index, which holds no value (00_scope R13, 10_state R44). SAFE: no invocation
  reaches it. -/
  | noValue (index : Nat)
  /-- SCHED_LD, SCHED_EX or ROUND with an index `t` outside the range the spec gives the operation (43_scheduler R171,
  R173, 44_compressor R195), for which it gives no effect. SAFE: no invocation reaches it. -/
  | indexOutOfRange (t : Nat)
deriving DecidableEq, Repr

/-- Reasons the model gives no meaning. -/
inductive Refusal where
  /-- Raised by an arm of exec whose instruction has no meaning yet. SAFE. No arm raises it now. -/
  | notModelled (mnemonic : String)
  /-- CHECK, and PAD for itself: the message is longer than MAXLEN, "behavior is undefined by this design" (41_padder
  R144, 46_hash_operation R237, 93 U1). SAFE. -/
  | lengthBeyondMaxlen
  /-- PAD with an operand that is not a byte sequence, which CHECK never lets through (41_padder R141). SAFE:
  unreachable. -/
  | operandNotByteSeq
  /-- An engine operation asked for in a phase in which it is not the enabled one (46_hash_operation R236). SAFE: step
  never asks. -/
  | notEnabled (phase : BitVec 4)
  /-- START or HASH while the engine is busy: "START has no transition" (46_hash_operation R235, 93 U2). SAFE: step
  never issues them then. -/
  | engineBusy
  /-- PHASE holds a reserved code, which has no step (30_encoding R97, 93 U7). SAFE: unreachable. -/
  | reservedPhase
deriving DecidableEq, Repr

/-- The complete state (10_state R20), with the operand the host has presented (R29, R30) and the host's moves to come
(the model's own field, log 5). -/
structure State where
  /-- The working variables `a..h` (10_state R21). -/
  vars : Vars
  /-- The digest state `H[0..7]` (10_state R22). -/
  H : Vector Word 8
  /-- The message schedule `W[0..63]` (10_state R24). -/
  W : Vector Word 64
  /-- The block buffer `BLK[0..63]` (10_state R25). -/
  BLK : Vector Byte 64
  /-- The padded message (10_state R31). -/
  PM : Memory
  /-- The number of blocks, 56 bits (10_state R32). -/
  N : BitVec 56
  /-- The digest string, 64 character codes (10_state R33). -/
  HEX : Vector Byte 64
  /-- The sequencer phase, a 4-bit code (10_state R36, 30_encoding R96). -/
  PHASE : BitVec 4
  /-- The index of the current block, 56 bits (10_state R35). -/
  j : BitVec 56
  /-- The index of the current schedule word or round, 7 bits (10_state R35). -/
  t : BitVec 7
  /-- The fault code, 1 bit (10_state R37). -/
  ERR : BitVec 1
  /-- The operand the host has presented (10_state R29, R30); it stays until the host presents another (log 14) or applies reset (log 13). -/
  ARG : Arg
  /-- The host's moves to come, the next one first (log 5). -/
  host : List HostMove
deriving DecidableEq, Repr

/-- The state after reset (10_state R43): PHASE = IDLE, ERR = 0; PM holds no byte. The spec gives no other element a
value; zero (and the empty operand) is the model's choice (DESIGN CHOICE, log 1). -/
def State.reset : State where
  vars := ⟨0#32, 0#32, 0#32, 0#32, 0#32, 0#32, 0#32, 0#32⟩
  H := Vector.replicate 8 0#32
  W := Vector.replicate 64 0#32
  BLK := Vector.replicate 64 0#8
  PM := []
  N := 0#56
  HEX := Vector.replicate 64 0#8
  PHASE := Phase.idle
  j := 0#56
  t := 0#7
  ERR := 0#1
  ARG := .byteSeq []
  host := []

end Sys2Proof.Machine
end

