-- ==== Sys2Proof/Machine/Ops.lean ====
section
/-! DEFINITION. The named operations over the registers and over the byte space, the two rules every operation shares
(it is enabled in its own phase only; its last act names the next phase), taking the one exception, and leaving it. -/

namespace Sys2Proof.Machine

/-- What executing one instruction, or one step, answers. -/
abbrev Result := Host.Outcome State Fault Refusal

/-! ## One update per element of the state (00_scope R12) -/

/-- `(a, .., h) <- v` (10_state R21). -/
def State.setVars (s : State) (v : Vars) : State := { s with vars := v }
/-- `H[0..7] <- v` (10_state R22). -/
def State.setH (s : State) (v : Vector Word 8) : State := { s with H := v }
/-- The whole of `W` (10_state R24). -/
def State.setW (s : State) (v : Vector Word 64) : State := { s with W := v }
/-- `BLK[0..63] <- v` (10_state R25). -/
def State.setBLK (s : State) (v : Vector Byte 64) : State := { s with BLK := v }
/-- `PM <- m` (10_state R31). -/
def State.setPM (s : State) (m : Memory) : State := { s with PM := m }
/-- `N <- n` (10_state R32). -/
def State.setN (s : State) (n : BitVec 56) : State := { s with N := n }
/-- `HEX[0..63] <- v` (10_state R33). -/
def State.setHEX (s : State) (v : Vector Byte 64) : State := { s with HEX := v }
/-- `PHASE <- p` (10_state R36). -/
def State.setPHASE (s : State) (p : BitVec 4) : State := { s with PHASE := p }
/-- `j <- v` (10_state R35). -/
def State.setJ (s : State) (v : BitVec 56) : State := { s with j := v }
/-- `t <- v` (10_state R35). -/
def State.setT (s : State) (v : BitVec 7) : State := { s with t := v }
/-- `ERR <- v` (10_state R37). -/
def State.setERR (s : State) (v : BitVec 1) : State := { s with ERR := v }
/-- The host presents an operand (10_state R29, R45). -/
def State.setARG (s : State) (v : Arg) : State := { s with ARG := v }
/-- The host's moves to come (log 5). -/
def State.setHost (s : State) (v : List HostMove) : State := { s with host := v }

/-! ## The byte space -/

/-- The canonical form: indices strictly rising. -/
abbrev Memory.wf (m : Memory) : Prop := m.Pairwise (fun x y => x.1 < y.1)

/-- The byte at index `a`; an index that is not listed holds no value (10_state R44). -/
def Memory.read : Memory → Nat → Option Byte
  | [], _ => none
  | (k, b) :: rest, a => if k = a then some b else Memory.read rest a

/-- Write one byte, keeping the canonical form. -/
def Memory.write : Memory → Nat → Byte → Memory
  | [], a, v => [(a, v)]
  | (k, b) :: rest, a, v =>
    if a < k then (a, v) :: (k, b) :: rest
    else if a = k then (a, v) :: rest
    else (k, b) :: Memory.write rest a v

/-- The cells of a byte sequence laid from index `a` on. -/
def Memory.ofBytesFrom : Nat → List Byte → Memory
  | _, [] => []
  | a, b :: bs => (a, b) :: Memory.ofBytesFrom (a + 1) bs

/-- A byte sequence indexed from 0 (20_memory R50): writing a whole space anew. -/
def Memory.ofBytes (bs : List Byte) : Memory := Memory.ofBytesFrom 0 bs

/-- `MemRead(S, i, n)`: the unsigned big-endian value of the `n` bytes at `i`, defined only where all of them hold a
value (00_scope R13, 20_memory R56). For `n = 0` it answers 0 at every index, past the end too, where the spec defines
nothing (DESIGN CHOICE, log 16; no step reads so). -/
def Memory.memRead (m : Memory) (i : Nat) : Nat → Option Nat
  | 0 => some 0
  | n + 1 =>
    match Memory.memRead m i n, m.read (i + n) with
    | some hi, some b => some (hi * 256 + b.toNat)
    | _, _ => none

/-- `MemWrite(S, i, n, v)`: the `n` bytes of `v`, most significant first, at `i` to `i + n - 1` (00_scope R13). The
spec gives MemWrite no domain: past the end of the space this adds cells, and of a `v` that needs more than `n` bytes it
writes the low `n` (DESIGN CHOICE, log 16; no step writes so). -/
def Memory.memWrite (m : Memory) (i : Nat) : Nat → Nat → Memory
  | 0, _ => m
  | n + 1, v => (Memory.memWrite m i n (v / 256)).write (i + n) (BitVec.ofNat 8 v)

/-- The first index of the `n` bytes from `a` that holds no value. -/
def Memory.firstMissing (m : Memory) (a n : Nat) : Option Nat :=
  ((List.range n).find? fun i => (m.read (a + i)).isNone).map fun i => a + i

/-! ## Phases -/

/-- IDLE, DONE or FAULT: the engine waits for the host (10_state R36). -/
def State.isResting (s : State) : Bool := isRestingCode s.PHASE

/-- An engine operation is enabled in the phase of its own name and in no other (46_hash_operation R236). -/
def State.whenEnabled (s : State) (p : BitVec 4) (r : Result) : Result :=
  if s.PHASE = p then r else .refused (.notEnabled s.PHASE)

/-- A host command is accepted in a resting phase and has no transition in any other (46_hash_operation R235). -/
def State.whenResting (s : State) (r : Result) : Result :=
  if s.isResting then r else .refused .engineBusy

/-! ## The exception -/

/-- Taking InvalidArgument: `ERR <- 1; PHASE <- FAULT`, nothing saved and nothing else changed (60_exceptions R274). -/
def State.raiseInvalidArgument (s : State) : State := (s.setERR 1#1).setPHASE Phase.fault

/-- START's effect, `ERR <- 0; PHASE <- CHECK` (46_hash_operation R235); it is also the only way out of FAULT
(60_exceptions R276). -/
def State.startCommand (s : State) : State := (s.setERR 0#1).setPHASE Phase.check

end Sys2Proof.Machine
end

