-- ==== Sys2Proof/Machine/Flags.lean ====
section
/-! DEFINITION. The engine has no condition codes (10_state R38); its one status flag is ERR. What depends on a condition
is the exit of each counted loop (46_hash_operation R236), written here once. -/

namespace Sys2Proof.Machine

/-- Fault code 0: no fault since the last START (60_exceptions R271). -/
def errNone : BitVec 1 := 0#1

/-- Fault code 1: InvalidArgument (60_exceptions R271). -/
def errInvalidArgument : BitVec 1 := 1#1

/-- After SCHED_LD: SCHED_EX when the old `t` was 15, else SCHED_LD again (46_hash_operation R241). -/
def phaseAfterLoad (t : BitVec 7) : BitVec 4 := if t = 15#7 then Phase.schedEx else Phase.schedLd

/-- After SCHED_EX: CINIT when the old `t` was 63, else SCHED_EX again (46_hash_operation R242). -/
def phaseAfterExpand (t : BitVec 7) : BitVec 4 := if t = 63#7 then Phase.cinit else Phase.schedEx

/-- After ROUND: FOLD when the old `t` was 63, else ROUND again (46_hash_operation R244). -/
def phaseAfterRound (t : BitVec 7) : BitVec 4 := if t = 63#7 then Phase.fold else Phase.round

/-- After FOLD: FMT when `j + 1 = N`, else LOADBLK (44_compressor R200, 46_hash_operation R245). -/
def phaseAfterFold (j N : BitVec 56) : BitVec 4 :=
  if j.toNat + 1 = N.toNat then Phase.fmt else Phase.loadblk

/-- `j` after FOLD: one greater only when `j + 1 < N` (44_compressor R200, 46_hash_operation R245). -/
def blockAfterFold (j N : BitVec 56) : BitVec 56 :=
  if j.toNat + 1 < N.toNat then j + 1#56 else j

end Sys2Proof.Machine
end

