-- ==== Sys2Proof/Machine/Primitives.lean ====
section
/-! DEFINITION. The combinational functions of 40_primitives.md, each total and pure (40_primitives R128). -/

namespace Sys2Proof.Machine

/-- Addition modulo 2^32; the carry is discarded (40_primitives R110). -/
def ADD32 (x y : Word) : Word := x + y

/-- The bit length of a message of `l` bytes: `zext_64(l)` shifted left by three (40_primitives R111). Its argument has
the 61 bits of LEN, so it never wraps. -/
def LEN8 (l : BitVec 61) : BitVec 64 := (l.setWidth 64) <<< 3

/-- Bitwise AND (40_primitives R112). -/
def AND32 (x y : Word) : Word := x &&& y

/-- Bitwise exclusive or (40_primitives R113). -/
def XOR32 (x y : Word) : Word := x ^^^ y

/-- Bitwise complement on 32 bits (40_primitives R114). -/
def NOT32 (x : Word) : Word := ~~~x

/-- Right rotation on 32 bits (40_primitives R115). -/
def ROTR (x : Word) (n : Nat) : Word := x.rotateRight n

/-- Logical right shift (40_primitives R116). -/
def SHR (x : Word) (n : Nat) : Word := x >>> n

/-- `(x AND y) XOR ((NOT x) AND z)` (40_primitives R117). -/
def Ch (x y z : Word) : Word := XOR32 (AND32 x y) (AND32 (NOT32 x) z)

/-- `(x AND y) XOR (x AND z) XOR (y AND z)` (40_primitives R118). -/
def Maj (x y z : Word) : Word := XOR32 (XOR32 (AND32 x y) (AND32 x z)) (AND32 y z)

/-- The source's upper-case sigma 0 (40_primitives R119). -/
def BSIG0 (x : Word) : Word := XOR32 (XOR32 (ROTR x 2) (ROTR x 13)) (ROTR x 22)

/-- The source's upper-case sigma 1 (40_primitives R120). -/
def BSIG1 (x : Word) : Word := XOR32 (XOR32 (ROTR x 6) (ROTR x 11)) (ROTR x 25)

/-- The source's lower-case sigma 0; its third term is a shift (40_primitives R121). -/
def SSIG0 (x : Word) : Word := XOR32 (XOR32 (ROTR x 7) (ROTR x 18)) (SHR x 3)

/-- The source's lower-case sigma 1; its third term is a shift (40_primitives R122). -/
def SSIG1 (x : Word) : Word := XOR32 (XOR32 (ROTR x 17) (ROTR x 19)) (SHR x 10)

/-- Four bytes to one word, the first byte most significant (40_primitives R123, 30_encoding R86). -/
def BE32 (b0 b1 b2 b3 : Byte) : Word := b0 ++ b1 ++ b2 ++ b3

/-- Byte `m` of a 64-bit value, counted from the most significant: `v[63 - 8m : 56 - 8m]` (40_primitives R124). -/
def byte64 (v : BitVec 64) (m : Nat) : Byte := v.extractLsb' (56 - 8 * m) 8

/-- A 64-bit value to eight bytes, most significant first (40_primitives R124). -/
def BE64 (v : BitVec 64) : List Byte :=
  [byte64 v 0, byte64 v 1, byte64 v 2, byte64 v 3, byte64 v 4, byte64 v 5, byte64 v 6, byte64 v 7]

/-- A 4-bit value to its lower-case hexadecimal character code: `0x30 + n` or `0x57 + n` (40_primitives R125). -/
def HEXCHAR (n : BitVec 4) : Byte :=
  if n.toNat ≤ 9 then 0x30#8 + n.setWidth 8 else 0x57#8 + n.setWidth 8

/-- Digit `m` of a word, counted from the most significant: `x[31 - 4m : 28 - 4m]` (40_primitives R126). -/
def nibble (x : Word) (m : Nat) : BitVec 4 := x.extractLsb' (28 - 4 * m) 4

/-- A word to eight characters, leading zeros kept (40_primitives R126). -/
def HEX8 (x : Word) : List Byte :=
  [HEXCHAR (nibble x 0), HEXCHAR (nibble x 1), HEXCHAR (nibble x 2), HEXCHAR (nibble x 3),
   HEXCHAR (nibble x 4), HEXCHAR (nibble x 5), HEXCHAR (nibble x 6), HEXCHAR (nibble x 7)]

end Sys2Proof.Machine
end

