-- ==== Sys2Proof/Machine/Operands.lean ====
section
/-! DEFINITION. The implicit operands of the operations (30_encoding R90, 46_hash_operation R254): the message and its
length, the bytes of a block, the words of a schedule step, the working variables as a file. -/

namespace Sys2Proof.Machine

/-- `IsByteSeq(ARG)` (10_state R30). -/
def argIsByteSeq : Arg → Bool
  | .byteSeq _ => true
  | .notByteSeq => false

/-- The bytes of MSG (10_state R30). For an operand that is not a byte sequence the spec gives no MSG, and this is the
empty list (DESIGN CHOICE, log 17; no step reads it then). -/
def argBytes : Arg → List Byte
  | .byteSeq msg => msg
  | .notByteSeq => []

/-- `l`, the length of MSG in bytes (10_state R29). An operand that is not a byte sequence has no length (60_exceptions
R275); this is 0 then (DESIGN CHOICE, log 17). -/
def State.len (s : State) : Nat := (argBytes s.ARG).length

/-- The register LEN: the 61-bit view of `l` (10_state R29, R39; log 4), equal to `l` up to MAXLEN; beyond it the cut
value means nothing (log 15). For an operand that is not a byte sequence the spec gives LEN no value, and this is 0
(DESIGN CHOICE, log 17). -/
def State.LEN (s : State) : BitVec 61 := BitVec.ofNat 61 s.len

/-- `V[i]`, the i-th working variable (10_state R21, R46). -/
def Vars.get (v : Vars) (i : Fin 8) : Word :=
  match i with
  | 0 => v.a
  | 1 => v.b
  | 2 => v.c
  | 3 => v.d
  | 4 => v.e
  | 5 => v.f
  | 6 => v.g
  | 7 => v.h

/-- The eight words of a digest state as working variables, `H[0]` with `a` to `H[7]` with `h` (10_state R23). -/
def Vars.ofDigest (H : Vector Word 8) : Vars :=
  ⟨H[0], H[1], H[2], H[3], H[4], H[5], H[6], H[7]⟩

/-- Byte `i` of block `j` is at index `64*j + i` of PM (42_segmenter R161). -/
def blockIndex (j i : Nat) : Nat := 64 * j + i

/-- The 64 bytes of block `j`, where PM holds them (42_segmenter R161). -/
def blockOf (m : Memory) (j : Nat) : Vector Byte 64 :=
  Vector.ofFn fun i => (m.read (blockIndex j i.val)).getD 0#8

/-- `BE32(BLK[4t], BLK[4t+1], BLK[4t+2], BLK[4t+3])` (43_scheduler R171). -/
def loadedWord (B : Vector Byte 64) (t : Nat) (h : t < 16) : Word :=
  BE32 B[4 * t] B[4 * t + 1] B[4 * t + 2] B[4 * t + 3]

/-- `SSIG1(W[t-2]) + W[t-7] + SSIG0(W[t-15]) + W[t-16]` (43_scheduler R173). -/
def expandedWord (W : Vector Word 64) (t : Nat) (h : 16 ≤ t ∧ t < 64) : Word :=
  ADD32 (ADD32 (ADD32 (SSIG1 W[t - 2]) W[t - 7]) (SSIG0 W[t - 15])) W[t - 16]

end Sys2Proof.Machine
end

