-- ==== Sys2Proof/Machine/Boundary.lean ====
section
/-! DEFINITION. The Sequencer's boundary: START and CHECK (46_hash_operation R235, R237). -/

namespace Sys2Proof.Machine

/-- START, a host command accepted in IDLE, DONE and FAULT (46_hash_operation R235). It writes ERR and PHASE only, so
the invocation takes the operand ARG holds. Where the host has presented none since the last invocation that is the old
operand, and where it has presented none since reset the empty byte sequence: the spec gives ARG a lifetime of one
invocation (10_state R20, R42) and does not say what START takes then. DESIGN CHOICE, log 14 (after reset, log 13). -/
def execStart (s : State) : Result := s.whenResting (.next s.startCommand)

/-- CHECK: the type check first, the length limit second (46_hash_operation R237, 60_exceptions R275). -/
def execCheck (s : State) : Result :=
  s.whenEnabled Phase.check <|
    if argIsByteSeq s.ARG = false then .next s.raiseInvalidArgument
    else if Config.maxLen < s.len then .refused .lengthBeyondMaxlen
    else .next (s.setPHASE Phase.pad)

end Sys2Proof.Machine
end

