-- ==== Sys2Proof/Machine/Compressor.lean ====
section
/-! DEFINITION. The Compressor: INIT_H, CINIT, ROUND, FOLD (44_compressor). -/

namespace Sys2Proof.Machine

/-- `T1 = h + BSIG1(e) + Ch(e, f, g) + K[i] + W[i]` (44_compressor R193). -/
def roundT1 (v : Vars) (k w : Word) : Word :=
  ADD32 (ADD32 (ADD32 (ADD32 v.h (BSIG1 v.e)) (Ch v.e v.f v.g)) k) w

/-- `T2 = BSIG0(a) + Maj(a, b, c)` (44_compressor R193). -/
def roundT2 (v : Vars) : Word := ADD32 (BSIG0 v.a) (Maj v.a v.b v.c)

/-- The parallel update of one round (44_compressor R195). -/
def roundVars (v : Vars) (k w : Word) : Vars :=
  ⟨ADD32 (roundT1 v k w) (roundT2 v), v.a, v.b, v.c, ADD32 v.d (roundT1 v k w), v.e, v.f, v.g⟩

/-- `H[i] + V[i]` for every `i` (44_compressor R200). -/
def foldedDigest (H : Vector Word 8) (v : Vars) : Vector Word 8 :=
  Vector.ofFn fun i => ADD32 H[i] (v.get i)

/-- INIT_H: `H <- IV; j <- 0` (44_compressor R190, 46_hash_operation R239). -/
def execInitH (s : State) : Result :=
  s.whenEnabled Phase.initH (.next (((s.setH Config.IV).setJ 0#56).setPHASE Phase.loadblk))

/-- CINIT: `a..h <- H; t <- 0` (44_compressor R192, 46_hash_operation R243). -/
def execCinit (s : State) : Result :=
  s.whenEnabled Phase.cinit (.next (((s.setVars (Vars.ofDigest s.H)).setT 0#7).setPHASE Phase.round))

/-- ROUND for `0 ≤ t ≤ 63` (44_compressor R195, 46_hash_operation R244). -/
def execRound (s : State) : Result :=
  s.whenEnabled Phase.round <|
    if h : s.t.toNat < 64 then
      .next (((s.setVars (roundVars s.vars Config.K[s.t.toNat] s.W[s.t.toNat])).setPHASE
        (phaseAfterRound s.t)).setT (s.t + 1#7))
    else .fault (.indexOutOfRange s.t.toNat)

/-- FOLD (44_compressor R200, 46_hash_operation R245). -/
def execFold (s : State) : Result :=
  s.whenEnabled Phase.fold
    (.next (((s.setH (foldedDigest s.H s.vars)).setPHASE (phaseAfterFold s.j s.N)).setJ
      (blockAfterFold s.j s.N)))

end Sys2Proof.Machine
end

