-- ==== Sys2Proof/Machine/Formatter.lean ====
section
/-! DEFINITION. The Digest Formatter: FMT (45_formatter). -/

namespace Sys2Proof.Machine

/-- `HEX[8i + m] = HEXCHAR(H[i][31 - 4m : 28 - 4m])` (45_formatter R221, 30_encoding R88). -/
def digestString (H : Vector Word 8) : Vector Byte 64 :=
  Vector.ofFn fun c => HEXCHAR (nibble (H[c.val / 8]) (c.val % 8))

/-- FMT (45_formatter R221, 46_hash_operation R246). -/
def execFmt (s : State) : Result :=
  s.whenEnabled Phase.fmt (.next ((s.setHEX (digestString s.H)).setPHASE Phase.done))

end Sys2Proof.Machine
end

