-- ==== Sys2Proof/Machine/Padder.lean ====
section
/-! DEFINITION. The Padder: PAD (41_padder). -/

namespace Sys2Proof.Machine

/-- `k = (55 - l) mod 64` with the non-negative remainder (41_padder R142). -/
def padZeros (l : Nat) : Nat := ((55 - (l : Int)) % 64).toNat

/-- `MSG ++ [0x80] ++ [0x00]^k ++ BE64(LEN8(l))` (41_padder R141). For `l > MAXLEN` LEN8 is not defined (40_primitives
R111, 93 U1): the length is cut to the 61 bits of LEN there, and the length field means nothing. DESIGN CHOICE, log 15;
CHECK and PAD refuse such an operand before this value is used. -/
def paddedMessage (msg : List Byte) : List Byte :=
  msg ++ [0x80#8] ++ List.replicate (padZeros msg.length) 0x00#8 ++ BE64 (LEN8 (BitVec.ofNat 61 msg.length))

/-- PAD (41_padder R141, 46_hash_operation R238): `PM`, then `N = length(PM) / 64`, then INIT_H. It is defined for
`l ≤ MAXLEN` (41_padder R144). -/
def execPad (s : State) : Result :=
  s.whenEnabled Phase.pad <|
    match s.ARG with
    | .notByteSeq => .refused .operandNotByteSeq
    | .byteSeq msg =>
      if Config.maxLen < msg.length then .refused .lengthBeyondMaxlen
      else
        .next (((s.setPM (Memory.ofBytes (paddedMessage msg))).setN
          (BitVec.ofNat 56 ((paddedMessage msg).length / 64))).setPHASE Phase.initH)

end Sys2Proof.Machine
end

