-- ==== Sys2Proof/Machine/Scheduler.lean ====
section
/-! DEFINITION. The Message Scheduler: SCHED_LD and SCHED_EX (43_scheduler). -/

namespace Sys2Proof.Machine

/-- SCHED_LD for `0 ≤ t ≤ 15` (43_scheduler R171, 46_hash_operation R241). -/
def execSchedLd (s : State) : Result :=
  s.whenEnabled Phase.schedLd <|
    if h : s.t.toNat < 16 then
      .next (((s.setW (s.W.set s.t.toNat (loadedWord s.BLK s.t.toNat h))).setPHASE
        (phaseAfterLoad s.t)).setT (s.t + 1#7))
    else .fault (.indexOutOfRange s.t.toNat)

/-- SCHED_EX for `16 ≤ t ≤ 63` (43_scheduler R173, 46_hash_operation R242). -/
def execSchedEx (s : State) : Result :=
  s.whenEnabled Phase.schedEx <|
    if h : 16 ≤ s.t.toNat ∧ s.t.toNat < 64 then
      .next (((s.setW (s.W.set s.t.toNat (expandedWord s.W s.t.toNat h))).setPHASE
        (phaseAfterExpand s.t)).setT (s.t + 1#7))
    else .fault (.indexOutOfRange s.t.toNat)

end Sys2Proof.Machine
end

