-- ==== Sys2Proof/Machine/Segmenter.lean ====
section
/-! DEFINITION. The Block Segmenter: LOADBLK (42_segmenter). -/

namespace Sys2Proof.Machine

/-- LOADBLK (42_segmenter R161, 46_hash_operation R240): all 64 bytes of block `j` at once; a byte that holds no value
faults (00_scope R13, 10_state R44). The spec enables it for `0 ≤ j < N`; there is no test of `j` against N here, and with
`j ≥ N`, which no legal state has, it does the same on what PM holds (DESIGN CHOICE, log 18). -/
def execLoadblk (s : State) : Result :=
  s.whenEnabled Phase.loadblk <|
    match s.PM.firstMissing (blockIndex s.j.toNat 0) 64 with
    | some i => .fault (.noValue i)
    | none => .next (((s.setBLK (blockOf s.PM s.j.toNat)).setT 0#7).setPHASE Phase.schedLd)

end Sys2Proof.Machine
end

