-- ==== Sys2Proof/Machine/Hash.lean ====
section
/-! DEFINITION. The pseudo-operation HASH (46_hash_operation R248): START and then the engine's own operations, one
after another, up to DONE or FAULT. -/

namespace Sys2Proof.Machine

/-- `N = floor((l + 8) / 64) + 1` (41_padder R142). -/
def blockCount (l : Nat) : Nat := (l + 8) / 64 + 1

/-- The number of engine operations after START: `131*N + 4`, or CHECK alone for an operand that is not a byte sequence
(46_hash_operation R248, R251). -/
def operationCount : Arg → Nat
  | .byteSeq msg => 131 * blockCount msg.length + 4
  | .notByteSeq => 1

/-- The engine's next operation, the one its phase enables (46_hash_operation R236); in a resting phase it has none and
its state does not change (R247). -/
def enabledOperation (s : State) : Result :=
  match decodeCode s.PHASE with
  | .ok .check => execCheck s
  | .ok .pad => execPad s
  | .ok .initH => execInitH s
  | .ok .loadblk => execLoadblk s
  | .ok .schedLd => execSchedLd s
  | .ok .schedEx => execSchedEx s
  | .ok .cinit => execCinit s
  | .ok .round => execRound s
  | .ok .fold => execFold s
  | .ok .fmt => execFmt s
  | .ok .start => .refused .reservedPhase
  | .ok (.hash _) => .refused .reservedPhase
  | .error .restingPhase => .next s
  | .error .reservedCode => .refused .reservedPhase
  | .error .notACode => .refused .reservedPhase
  | .error .noByte => .refused .reservedPhase

/-- `n` operations of the engine, stopping at the first that gives no next state. -/
def runOperations : Nat → State → Result
  | 0, s => .next s
  | n + 1, s =>
    match enabledOperation s with
    | .next s' => runOperations n s'
    | .fault r => .fault r
    | .refused r => .refused r

/-- HASH: present the operand, START, then the engine's operations (46_hash_operation R248), taken as one step (00_scope
R18, log 8). -/
def execHash (arg : Arg) (s : State) : Result :=
  s.whenResting (runOperations (operationCount arg) (s.setARG arg).startCommand)

end Sys2Proof.Machine
end

