-- ==== Sys2Proof/Machine/Dispatch.lean ====
section
/-! DEFINITION. One arm per operation. -/

namespace Sys2Proof.Machine

def exec (i : Instr) (s : State) : Host.Outcome State Fault Refusal :=
  match i with
  | .start => Sys2Proof.Machine.execStart s
  | .check => Sys2Proof.Machine.execCheck s
  | .pad => Sys2Proof.Machine.execPad s
  | .initH => Sys2Proof.Machine.execInitH s
  | .loadblk => Sys2Proof.Machine.execLoadblk s
  | .schedLd => Sys2Proof.Machine.execSchedLd s
  | .schedEx => Sys2Proof.Machine.execSchedEx s
  | .cinit => Sys2Proof.Machine.execCinit s
  | .round => Sys2Proof.Machine.execRound s
  | .fold => Sys2Proof.Machine.execFold s
  | .fmt => Sys2Proof.Machine.execFmt s
  | .hash arg => Sys2Proof.Machine.execHash arg s

end Sys2Proof.Machine
end

