-- ==== Sys2Proof/Machine/HostSide.lean ====
section
/-! DEFINITION. The host's side: what it reads, its moves, reset, and what one step of engine and host together does.
Step.lean only calls this file. -/

namespace Sys2Proof.Machine

/-! ## What the host reads (10_state R45, 46_hash_operation R256). A read changes nothing (20_memory R61). -/

/-- The host polls PHASE, at any time. -/
def State.readPHASE (s : State) : BitVec 4 := s.PHASE

/-- The host polls ERR, at any time. -/
def State.readERR (s : State) : BitVec 1 := s.ERR

/-- The host reads `H[i]`: the digest word in DONE, a draw in any other phase. -/
def State.readH (s : State) (i : Fin 8) : Word :=
  if s.PHASE = Phase.done then s.H[i] else Config.drawWord s i

/-- The host reads `HEX[i]`: the character in DONE, a draw in any other phase. -/
def State.readHEX (s : State) (i : Fin 64) : Byte :=
  if s.PHASE = Phase.done then s.HEX[i] else Config.drawChar s i

/-! ## Reset and the step -/

/-- Reset, at any time: the reset state; the host's moves to come are not the engine's and stay (70_reset_and_hazards
R300, log 5). -/
def State.applyReset (s : State) : State := State.reset.setHost s.host

/-- The engine's own step: the operation its phase enables (46_hash_operation R236); a resting phase waits (R247); a
reserved code has no step (30_encoding R97). -/
def engineStep (s : State) : Result :=
  match decodeCode s.PHASE with
  | .ok i => exec i s
  | .error .restingPhase => .next s
  | .error _ => .refused .reservedPhase

/-- In a resting phase the host's next move is taken; without one the engine waits (46_hash_operation R247, R256). -/
def hostStep (s : State) : Result :=
  match s.host with
  | .present arg :: rest => .next ((s.setHost rest).setARG arg)
  | .start :: rest => exec .start (s.setHost rest)
  | .hash arg :: rest => exec (.hash arg) (s.setHost rest)
  | .wait :: rest => .next (s.setHost rest)
  | .reset :: rest => .next (s.setHost rest).applyReset
  | [] => .next s

/-- One step. Reset acts in any phase and `wait` lets one step pass; every other move of the host waits for a resting
phase (46_hash_operation R256, 70_reset_and_hazards R300). -/
def stepOnce (s : State) : Result :=
  match s.host with
  | .reset :: rest => .next (s.setHost rest).applyReset
  | .wait :: rest => engineStep (s.setHost rest)
  | _ => if s.isResting then hostStep s else engineStep s

/-! ## Naming the next operation -/

/-- A move that acts in a busy phase too. -/
def HostMove.actsWhileBusy : HostMove → Bool
  | .present _ => false
  | .start => false
  | .hash _ => false
  | .wait => true
  | .reset => true

/-- The index an operation needs beside its phase (30_encoding R90, R95): `t` in the operation's range, and for LOADBLK
a block `j` that PM holds. An index already in range is kept. -/
def State.placeIndex (s : State) (c : BitVec 4) : State :=
  if c = Phase.schedLd then (if s.t.toNat < 16 then s else s.setT 0#7)
  else if c = Phase.schedEx then (if 16 ≤ s.t.toNat ∧ s.t.toNat < 64 then s else s.setT 16#7)
  else if c = Phase.round then (if s.t.toNat < 64 then s else s.setT 0#7)
  else if c = Phase.loadblk then
    match s.PM.firstMissing (blockIndex s.j.toNat 0) 64 with
    | none => s
    | some _ => ((s.setPM (Memory.ofBytes (paddedMessage []))).setN 1#56).setJ 0#56
  else s

/-- PHASE, and with it the index, set so that the next step performs the operation of code `c`; host moves that would
act before it are dropped (log 7). -/
def State.placeCode (s : State) (c : BitVec 4) : State :=
  ((s.placeIndex c).setPHASE c).setHost (s.host.dropWhile HostMove.actsWhileBusy)

end Sys2Proof.Machine
end

