-- ==== Sys2Proof/Machine/Step.lean ====
section
/-! DEFINITION. One step of the machine, and placing an operation where the step finds it. -/

namespace Sys2Proof.Machine

/-- One step (00_scope R18): the host's next move where it acts, else the engine's enabled operation. -/
def step (s : State) : Host.Outcome State Fault Refusal := stepOnce s

/-- `s` with the operation of the table word `w` as the one the next step performs. The engine fetches nothing; PHASE
names its next operation (10_state R34, R36; log 7). -/
def State.withFetchWord (s : State) (_nbits w : Nat) : State := s.placeCode (BitVec.ofNat 4 w)

end Sys2Proof.Machine
end

