-- ==== Sys2Proof/Machine/Functional.lean ====
section
/-! DEFINITION. The pure function the engine computes (46_hash_operation R249), over lists and without the sequencer:
what statements compare the machine with. It shares the word primitives, the padding and the one round with the
meanings; the block loop, the schedule and the round loop are its own. It is the spec's for `l ≤ MAXLEN` only: beyond
that the values of `functionalDigest`, `functionalHash` and `paddedByte` mean nothing (93 U1, log 15). -/

namespace Sys2Proof.Machine

/-- Bytes `64j` to `64j + 63` of a padded message (46_hash_operation R249, 30_encoding R85). -/
def functionalBlock (p : List Byte) (j : Nat) : List Byte := (p.drop (64 * j)).take 64

/-- `blocks(P)`, left to right (46_hash_operation R249). -/
def functionalBlocks (p : List Byte) : List (List Byte) :=
  (List.range (p.length / 64)).map (functionalBlock p)

/-- `schedule(B)[i]` for `i` in 0 to 15 (46_hash_operation R249). -/
def firstWords (b : List Byte) : List Word :=
  (List.range 16).map fun i =>
    BE32 (b.getD (4 * i) 0#8) (b.getD (4 * i + 1) 0#8) (b.getD (4 * i + 2) 0#8) (b.getD (4 * i + 3) 0#8)

/-- `n` further schedule words appended, each from the words before it (46_hash_operation R249). -/
def extendWords : Nat → List Word → List Word
  | 0, ws => ws
  | n + 1, ws =>
    extendWords n (ws ++
      [SSIG1 (ws.getD (ws.length - 2) 0#32) + ws.getD (ws.length - 7) 0#32 +
        SSIG0 (ws.getD (ws.length - 15) 0#32) + ws.getD (ws.length - 16) 0#32])

/-- `schedule(B)`, 64 words (46_hash_operation R249). -/
def functionalSchedule (b : List Byte) : List Word := extendWords 48 (firstWords b)

/-- `V64`: the rounds over the paired constants and words (46_hash_operation R249). -/
def functionalRounds (v : Vars) (ws : List Word) : Vars :=
  (Config.K.toList.zip ws).foldl (fun v kw => roundVars v kw.1 kw.2) v

/-- `compress(Hs, B)` (46_hash_operation R249). -/
def functionalCompress (Hs : Vector Word 8) (b : List Byte) : Vector Word 8 :=
  foldedDigest Hs (functionalRounds (Vars.ofDigest Hs) (functionalSchedule b))

/-- `digest(M)`: the left fold of `compress` over the blocks from IV (46_hash_operation R249), for `l ≤ MAXLEN`; beyond
it the value means nothing (DESIGN CHOICE, log 15). -/
def functionalDigest (msg : List Byte) : Vector Word 8 :=
  (functionalBlocks (paddedMessage msg)).foldl functionalCompress Config.IV

/-- `hash(M)`: the eight words of the digest as 64 characters (46_hash_operation R249), for `l ≤ MAXLEN`; beyond it the
value means nothing (DESIGN CHOICE, log 15). -/
def functionalHash (msg : List Byte) : List Byte :=
  (functionalDigest msg).toList.flatMap HEX8

/-- Byte `i` of the padded message in closed form, for `i < 64N` (41_padder R143) and `l ≤ MAXLEN`; beyond the limit the
bytes of the length field mean nothing (DESIGN CHOICE, log 15). -/
def paddedByte (msg : List Byte) (i : Nat) : Byte :=
  let l := msg.length
  let N := blockCount l
  if i < l then msg.getD i 0#8
  else if i = l then 0x80#8
  else if i < 64 * N - 8 then 0x00#8
  else byte64 (LEN8 (BitVec.ofNat 61 l)) (i - (64 * N - 8))

/-- The operations HASH expands to, in order (46_hash_operation R248), for a byte sequence within the limit and for an
operand that is none; beyond the limit the list means nothing (log 15), and CHECK refuses. -/
def hashExpansion : Arg → List Instr
  | .byteSeq msg =>
    [.start, .check, .pad, .initH] ++
    (List.range (blockCount msg.length)).flatMap (fun _ =>
      [.loadblk] ++ List.replicate 16 .schedLd ++ List.replicate 48 .schedEx ++
      [.cinit] ++ List.replicate 64 .round ++ [.fold]) ++
    [.fmt]
  | .notByteSeq => [.start, .check]

end Sys2Proof.Machine
end

