-- ==== Sys2Proof/Safety.lean ====
section
/-! DEFINITION. The terms claims are stated in: a legal state, the transition table of the Sequencer, a list of
instructions performed one after another, the source's sequential form of a round. -/

namespace Sys2Proof.Machine

/-- The operand is a byte sequence within the limit, PM is its padded message, byte for byte and no byte more, and N is
its number of blocks: both are functions of the operand alone (10_state R31, R32). -/
def State.HoldsPaddedMessage (s : State) : Prop :=
  ∃ msg : List Byte, s.ARG = .byteSeq msg ∧ msg.length ≤ Config.maxLen ∧
    s.PM = Memory.ofBytes (paddedMessage msg) ∧ s.N.toNat = blockCount msg.length

/-- The phases of the block loop, LOADBLK to FOLD, and FMT after it (30_encoding R96): the phases in which a block `j`
of the padded message is being worked on. -/
def inBlockLoop (c : BitVec 4) : Bool := decide (4 ≤ c.toNat) && decide (c.toNat ≤ 10)

/-- A legal state: what the spec says of every state a run reaches (10_state R35 to R37, 30_encoding R97,
46_hash_operation R236 to R247). -/
structure State.Legal (s : State) : Prop where
  /-- No reserved code (30_encoding R97). -/
  phase : s.PHASE.toNat ≤ 12
  /-- ERR is 1 exactly in FAULT (10_state R37). -/
  err : s.ERR = 1#1 ↔ s.PHASE = Phase.fault
  /-- PM is in canonical form (the model's own form, log 2). -/
  canonical : s.PM.wf
  /-- CHECK has let the operand through (41_padder R141). -/
  accepted : s.PHASE = Phase.pad → argIsByteSeq s.ARG = true ∧ s.len ≤ Config.maxLen
  /-- PAD has written PM and N from the operand (10_state R31, R32, R44). -/
  padded : s.PHASE = Phase.initH → s.HoldsPaddedMessage
  /-- PM and N are still those of the operand, and `j < N` (10_state R31, R32, R35). -/
  block : inBlockLoop s.PHASE = true → s.HoldsPaddedMessage ∧ s.j.toNat < s.N.toNat
  /-- `0 ≤ t ≤ 15` (46_hash_operation R241). -/
  loading : s.PHASE = Phase.schedLd → s.t.toNat ≤ 15
  /-- `16 ≤ t ≤ 63` (46_hash_operation R242). -/
  expanding : s.PHASE = Phase.schedEx → 16 ≤ s.t.toNat ∧ s.t.toNat ≤ 63
  /-- `t = 64` on leaving SCHED_EX (10_state R35). -/
  expanded : s.PHASE = Phase.cinit → s.t = 64#7
  /-- `0 ≤ t ≤ 63` (46_hash_operation R244). -/
  mixing : s.PHASE = Phase.round → s.t.toNat ≤ 63
  /-- `t = 64` on leaving ROUND (10_state R35). -/
  mixed : s.PHASE = Phase.fold → s.t = 64#7
  /-- FMT follows the FOLD of the last block only (46_hash_operation R245). -/
  last : s.PHASE = Phase.fmt → s.j.toNat + 1 = s.N.toNat
  /-- In DONE the string renders the digest words (46_hash_operation R247). -/
  result : s.PHASE = Phase.done → s.HEX = digestString s.H

/-- The next move of the host, where it is HASH, has an operand within the limit. -/
def State.NextHashWithinLimit (s : State) : Prop :=
  ∀ arg rest, s.host = .hash arg :: rest → arg.withinLimit = true

/-- The rows of the transition table (46_hash_operation R236): from PHASE, to PHASE, condition, counter changes. HASH is
no row of it; it starts in a resting phase and ends in DONE for a byte sequence, which is then within the limit, and in
FAULT for an operand that is none (46_hash_operation R248). -/
def allowedTransition (i : Instr) (s t : State) : Prop :=
  match i with
  | .start => s.isResting = true ∧ t.PHASE = Phase.check ∧ t.j = s.j ∧ t.t = s.t ∧ t.N = s.N
  | .check =>
    s.PHASE = Phase.check ∧ t.j = s.j ∧ t.t = s.t ∧ t.N = s.N ∧
      ((t.PHASE = Phase.pad ∧ argIsByteSeq s.ARG = true ∧ s.len ≤ Config.maxLen) ∨
       (t.PHASE = Phase.fault ∧ argIsByteSeq s.ARG = false))
  | .pad => s.PHASE = Phase.pad ∧ t.PHASE = Phase.initH ∧ t.j = s.j ∧ t.t = s.t
  | .initH => s.PHASE = Phase.initH ∧ t.PHASE = Phase.loadblk ∧ t.j = 0#56 ∧ t.t = s.t ∧ t.N = s.N
  | .loadblk => s.PHASE = Phase.loadblk ∧ t.PHASE = Phase.schedLd ∧ t.t = 0#7 ∧ t.j = s.j ∧ t.N = s.N
  | .schedLd =>
    s.PHASE = Phase.schedLd ∧ t.j = s.j ∧ t.N = s.N ∧ t.t.toNat = s.t.toNat + 1 ∧
      ((s.t.toNat < 15 ∧ t.PHASE = Phase.schedLd) ∨ (s.t.toNat = 15 ∧ t.PHASE = Phase.schedEx))
  | .schedEx =>
    s.PHASE = Phase.schedEx ∧ t.j = s.j ∧ t.N = s.N ∧ t.t.toNat = s.t.toNat + 1 ∧
      ((s.t.toNat < 63 ∧ t.PHASE = Phase.schedEx) ∨ (s.t.toNat = 63 ∧ t.PHASE = Phase.cinit))
  | .cinit => s.PHASE = Phase.cinit ∧ t.PHASE = Phase.round ∧ t.t = 0#7 ∧ t.j = s.j ∧ t.N = s.N
  | .round =>
    s.PHASE = Phase.round ∧ t.j = s.j ∧ t.N = s.N ∧ t.t.toNat = s.t.toNat + 1 ∧
      ((s.t.toNat < 63 ∧ t.PHASE = Phase.round) ∨ (s.t.toNat = 63 ∧ t.PHASE = Phase.fold))
  | .fold =>
    s.PHASE = Phase.fold ∧ t.t = s.t ∧ t.N = s.N ∧
      (s.j.toNat + 1 < s.N.toNat → t.PHASE = Phase.loadblk ∧ t.j.toNat = s.j.toNat + 1) ∧
      (s.j.toNat + 1 = s.N.toNat → t.PHASE = Phase.fmt ∧ t.j = s.j)
  | .fmt => s.PHASE = Phase.fmt ∧ t.PHASE = Phase.done ∧ t.j = s.j ∧ t.t = s.t ∧ t.N = s.N
  | .hash arg =>
    s.isResting = true ∧
      ((t.PHASE = Phase.done ∧ argIsByteSeq arg = true ∧ arg.withinLimit = true) ∨
       (t.PHASE = Phase.fault ∧ argIsByteSeq arg = false))

/-- Perform a list of instructions in order, stopping at the first that gives no next state. -/
def performAll : List Instr → State → Result
  | [], s => .next s
  | i :: is, s =>
    match exec i s with
    | .next s' => performAll is s'
    | .fault r => .fault r
    | .refused r => .refused r

/-- The source's sequential form of a round, in the order `h, g, f, e, d, c, b, a` (44_compressor R196): each line
assigns one variable of the structure the lines before it left. -/
def sequentialRound (v : Vars) (k w : Word) : Vars :=
  let T1 := roundT1 v k w
  let T2 := roundT2 v
  let v := { v with h := v.g }
  let v := { v with g := v.f }
  let v := { v with f := v.e }
  let v := { v with e := ADD32 v.d T1 }
  let v := { v with d := v.c }
  let v := { v with c := v.b }
  let v := { v with b := v.a }
  { v with a := ADD32 T1 T2 }

end Sys2Proof.Machine
end

