-- ==== Sys2Proof/Certificates/Slice0/Obligations.lean ====
section
/-! DEFINITION. The statements for the provers, each taken from the spec's rules. `exec i s = .next t` says that the
instruction completes and which state it leaves; a record update `{ s with ... }` names every element the operation
writes, and so says as well that every other element keeps its value. -/

section Statements

open Sys2Proof Sys2Proof.Machine

/-! ## Encoding and the step -/

/-- 30_encoding R95, R96, R97: the operation each code enables, the three resting codes, the three reserved codes. The
spec's codes are 4 bits wide; a byte that holds one in its low four bits is the model's choice (log 7). -/
def Obligations.PhaseCodesNameTheirOperations : Prop :=
  (decode [0x01#8] = .ok (.check, []) ∧ decode [0x02#8] = .ok (.pad, []) ∧ decode [0x03#8] = .ok (.initH, []) ∧
   decode [0x04#8] = .ok (.loadblk, []) ∧ decode [0x05#8] = .ok (.schedLd, []) ∧
   decode [0x06#8] = .ok (.schedEx, []) ∧ decode [0x07#8] = .ok (.cinit, []) ∧ decode [0x08#8] = .ok (.round, []) ∧
   decode [0x09#8] = .ok (.fold, []) ∧ decode [0x0A#8] = .ok (.fmt, [])) ∧
  (decode [0x00#8] = .error .restingPhase ∧ decode [0x0B#8] = .error .restingPhase ∧
   decode [0x0C#8] = .error .restingPhase) ∧
  (decode [0x0D#8] = .error .reservedCode ∧ decode [0x0E#8] = .error .reservedCode ∧
   decode [0x0F#8] = .error .reservedCode)

/-- The model's own byte form of the 4-bit codes of 30_encoding R95, R96 (log 7: one byte, its upper four bits zero; the
spec has no binary command, R80): the bytes of an operation that has a code decode to it, with whatever follows handed
back; and bytes that decode to an operation begin with its bytes. -/
def Obligations.EncodedOperationsDecodeBack : Prop :=
  (∀ i bs rest, encodeBytes i = some bs → decode (bs ++ rest) = .ok (i, rest)) ∧
  (∀ i bs rest, decode bs = .ok (i, rest) → ∃ w, encodeBytes i = some w ∧ bs = w ++ rest)

/-- 46_hash_operation R236: the operation PHASE names is the engine's next step. Host moves that wait for a resting
phase do not disturb it; the move `wait` is taken beside it (log 5). -/
def Obligations.StepPerformsTheEnabledOperation : Prop :=
  ∀ (s : State) (i : Instr), decodeCode s.PHASE = .ok i →
    ((∀ m rest, s.host = m :: rest → m.actsWhileBusy = false) → step s = exec i s) ∧
    (∀ rest, s.host = .wait :: rest → step s = exec i { s with host := rest })

/-- The model's own interface (log 7): an operation placed by its table word is the one the next step performs. -/
def Obligations.PlacedOperationRunsNext : Prop :=
  ∀ (s : State) (w : Nat), 1 ≤ w → w ≤ 10 →
    ∃ i, decodeTableWord 8 w = some i ∧ step (s.withFetchWord 8 w) = exec i (s.withFetchWord 8 w)

/-- 46_hash_operation R247: in IDLE, DONE and FAULT the state does not change until the host acts. -/
def Obligations.RestingEngineWaits : Prop :=
  ∀ s : State, (s.PHASE = Phase.idle ∨ s.PHASE = Phase.done ∨ s.PHASE = Phase.fault) → s.host = [] →
    step s = .next s

/-- 30_encoding R97, 93 U7: a state with a reserved code has no step (reset apart). -/
def Obligations.ReservedPhaseHasNoStep : Prop :=
  ∀ s : State, 13 ≤ s.PHASE.toNat → (∀ rest, s.host ≠ .reset :: rest) → step s = .refused .reservedPhase

/-- 46_hash_operation R256 (log 5): in a resting phase the host presents an operand, issues START, or issues HASH. -/
def Obligations.HostMovesAreTakenAtRest : Prop :=
  ∀ (s : State) (rest : List HostMove),
    (s.PHASE = Phase.idle ∨ s.PHASE = Phase.done ∨ s.PHASE = Phase.fault) →
    (∀ arg, s.host = .present arg :: rest → step s = .next { s with ARG := arg, host := rest }) ∧
    (s.host = .start :: rest →
      step s = .next { s with ERR := 0#1, PHASE := Phase.check, host := rest }) ∧
    (∀ arg, s.host = .hash arg :: rest → step s = exec (.hash arg) { s with host := rest })

/-- 70_reset_and_hazards R300, 10_state R43: reset, in any phase, leaves PHASE = IDLE, ERR = 0 and no byte of PM with a
value. That the host's moves to come stay, the last clause, is the model's choice (log 13). What the other registers
hold then is the model's choice too (log 1) and is not stated. -/
def Obligations.ResetReturnsToIdle : Prop :=
  ∀ (s : State) (rest : List HostMove), s.host = .reset :: rest →
    ∃ t, step s = .next t ∧ t.PHASE = Phase.idle ∧ t.ERR = 0#1 ∧ (∀ a, t.PM.read a = none) ∧ t.host = rest

/-- 10_state R45: PHASE and ERR are read at any time, `HEX[i]` and `H[i]` in DONE. What a read in another phase returns
is a free value (log 6) of which nothing is stated. -/
def Obligations.HostReadsTheResultInDone : Prop :=
  ∀ s : State, s.readPHASE = s.PHASE ∧ s.readERR = s.ERR ∧
    (s.PHASE = Phase.done → (∀ i : Fin 8, s.readH i = s.H[i]) ∧ (∀ i : Fin 64, s.readHEX i = s.HEX[i]))

/-! ## One operation at a time: completion, result, frame -/

/-- 46_hash_operation R235: START is accepted in IDLE, DONE and FAULT, writes ERR and PHASE and nothing else, and has no
transition in any other phase. (What operand it takes where none was presented since the last invocation follows from its
writing nothing else, and is marked in log 14.) -/
def Obligations.StartEntersCheck : Prop :=
  ∀ s : State,
    ((s.PHASE = Phase.idle ∨ s.PHASE = Phase.done ∨ s.PHASE = Phase.fault) →
      exec .start s = .next { s with ERR := 0#1, PHASE := Phase.check }) ∧
    (s.PHASE ≠ Phase.idle → s.PHASE ≠ Phase.done → s.PHASE ≠ Phase.fault →
      exec .start s = .refused .engineBusy)

/-- 46_hash_operation R237, 60_exceptions R274: CHECK raises InvalidArgument for an operand that is no byte sequence
(`ERR <- 1; PHASE <- FAULT`, nothing else), is refused beyond MAXLEN, and otherwise goes to PAD. -/
def Obligations.CheckRejectsOrAccepts : Prop :=
  ∀ s : State, s.PHASE = Phase.check →
    (s.ARG = .notByteSeq → exec .check s = .next { s with ERR := 1#1, PHASE := Phase.fault }) ∧
    (∀ msg, s.ARG = .byteSeq msg → 2 ^ 61 - 1 < msg.length → exec .check s = .refused .lengthBeyondMaxlen) ∧
    (∀ msg, s.ARG = .byteSeq msg → msg.length ≤ 2 ^ 61 - 1 → exec .check s = .next { s with PHASE := Phase.pad })

/-- 41_padder R141: PAD writes MSG, 0x80, the least `k` zero bytes with `(l + 1 + k) mod 64 = 56`, and the 64-bit bit
length big-endian, sets `N = length(PM) / 64`, and goes to INIT_H. -/
def Obligations.PadWritesThePaddedMessage : Prop :=
  ∀ (s : State) (msg : List Byte), s.PHASE = Phase.pad → s.ARG = .byteSeq msg → msg.length ≤ 2 ^ 61 - 1 →
    ∃ (k : Nat) (n : BitVec 56),
      (msg.length + 1 + k) % 64 = 56 ∧ (∀ k' < k, (msg.length + 1 + k') % 64 ≠ 56) ∧
      64 * n.toNat = msg.length + 1 + k + 8 ∧
      exec .pad s = .next { s with
        PM := Memory.ofBytes
          (msg ++ [0x80#8] ++ List.replicate k 0x00#8 ++ BE64 (BitVec.ofNat 64 (msg.length * 8)))
        N := n
        PHASE := Phase.initH }

/-- 41_padder R143, R81: after PAD every byte of PM, by its index: the message, 0x80, zeros, the length; and no byte
beyond `64N`. -/
def Obligations.PadBytesInClosedForm : Prop :=
  ∀ (s : State) (msg : List Byte), s.PHASE = Phase.pad → s.ARG = .byteSeq msg → msg.length ≤ 2 ^ 61 - 1 →
    ∃ t, exec .pad s = .next t ∧ t.N.toNat = blockCount msg.length ∧
      (∀ i, i < 64 * blockCount msg.length → t.PM.read i = some (paddedByte msg i)) ∧
      (∀ i, 64 * blockCount msg.length ≤ i → t.PM.read i = none)

/-- 41_padder R142, 46_hash_operation R250 (c): the closed forms of `k`, the padded length and `N`; the padded length is
the smallest multiple of 64 that is at least `l + 9`. -/
def Obligations.PaddedLengthIsTheSmallestMultiple : Prop :=
  ∀ msg : List Byte,
    (padZeros msg.length : Int) = (55 - (msg.length : Int)) % 64 ∧ padZeros msg.length ≤ 63 ∧
    (paddedMessage msg).length = msg.length + 9 + padZeros msg.length ∧
    blockCount msg.length = (msg.length + 8) / 64 + 1 ∧
    (paddedMessage msg).length = 64 * blockCount msg.length ∧
    ∀ m, m % 64 = 0 → msg.length + 9 ≤ m → (paddedMessage msg).length ≤ m

/-- 44_compressor R190, 10_state R28: INIT_H loads the eight IV words, sets `j` to 0 and goes to LOADBLK. The spec gives
the words from general knowledge (PRESUMED, log 3). -/
def Obligations.InitHLoadsTheInitialDigest : Prop :=
  ∀ s : State, s.PHASE = Phase.initH →
    exec .initH s = .next { s with
      H := #v[0x6a09e667#32, 0xbb67ae85#32, 0x3c6ef372#32, 0xa54ff53a#32,
              0x510e527f#32, 0x9b05688c#32, 0x1f83d9ab#32, 0x5be0cd19#32]
      j := 0#56
      PHASE := Phase.loadblk }

/-- 42_segmenter R161: LOADBLK copies bytes `64j` to `64j + 63` of PM into BLK, sets `t` to 0 and goes to SCHED_LD. With
`j ≥ N`, where the spec does not enable it and no legal state is, it does so where PM holds the bytes: the model's
choice (log 18). -/
def Obligations.LoadblkCopiesTheBlock : Prop :=
  ∀ (s : State) (v : Vector Byte 64), s.PHASE = Phase.loadblk →
    (∀ i : Fin 64, s.PM.read (64 * s.j.toNat + i.val) = some v[i]) →
    exec .loadblk s = .next { s with BLK := v, t := 0#7, PHASE := Phase.schedLd }

/-- 00_scope R13, 10_state R44: LOADBLK of a block with a byte that holds no value faults. That the fault falls at, and
names, the first such byte is the model's choice (log 2): 42_segmenter R161 reads all 64 at once. So is what it does with
`j ≥ N` (log 18). -/
def Obligations.LoadblkFaultsOnAByteWithoutValue : Prop :=
  ∀ (s : State) (i : Nat), s.PHASE = Phase.loadblk → i < 64 → s.PM.read (64 * s.j.toNat + i) = none →
    (∀ k < i, (s.PM.read (64 * s.j.toNat + k)).isSome) →
    exec .loadblk s = .fault (.noValue (64 * s.j.toNat + i))

/-- 43_scheduler R171: SCHED_LD loads `W[t]` big-endian from `BLK[4t..4t+3]` and counts; SCHED_EX follows `t = 15`. -/
def Obligations.SchedLdLoadsAWord : Prop :=
  ∀ (s : State) (h : s.t.toNat ≤ 15), s.PHASE = Phase.schedLd →
    exec .schedLd s = .next { s with
      W := s.W.set s.t.toNat
        (BE32 s.BLK[4 * s.t.toNat] s.BLK[4 * s.t.toNat + 1] s.BLK[4 * s.t.toNat + 2] s.BLK[4 * s.t.toNat + 3])
      t := s.t + 1#7
      PHASE := if s.t.toNat = 15 then Phase.schedEx else Phase.schedLd }

/-- 43_scheduler R173: SCHED_EX computes `W[t]` from `W[t-2]`, `W[t-7]`, `W[t-15]`, `W[t-16]` modulo 2^32 and counts;
CINIT follows `t = 63`. -/
def Obligations.SchedExExpandsAWord : Prop :=
  ∀ (s : State) (h : 16 ≤ s.t.toNat ∧ s.t.toNat ≤ 63), s.PHASE = Phase.schedEx →
    exec .schedEx s = .next { s with
      W := s.W.set s.t.toNat
        (SSIG1 s.W[s.t.toNat - 2] + s.W[s.t.toNat - 7] + SSIG0 s.W[s.t.toNat - 15] + s.W[s.t.toNat - 16])
      t := s.t + 1#7
      PHASE := if s.t.toNat = 63 then Phase.cinit else Phase.schedEx }

/-- 44_compressor R192: CINIT copies `H[0..7]` into `a..h`, sets `t` to 0 and goes to ROUND. -/
def Obligations.CinitCopiesTheDigest : Prop :=
  ∀ s : State, s.PHASE = Phase.cinit →
    exec .cinit s = .next { s with
      vars := ⟨s.H[0], s.H[1], s.H[2], s.H[3], s.H[4], s.H[5], s.H[6], s.H[7]⟩
      t := 0#7
      PHASE := Phase.round }

/-- 44_compressor R193, R195: the round's temporaries and its parallel update; FOLD follows `t = 63`. -/
def Obligations.RoundMixesTheVariables : Prop :=
  ∀ (s : State) (h : s.t.toNat ≤ 63), s.PHASE = Phase.round →
    let v := s.vars
    let T1 := v.h + BSIG1 v.e + Ch v.e v.f v.g + Config.K[s.t.toNat] + s.W[s.t.toNat]
    let T2 := BSIG0 v.a + Maj v.a v.b v.c
    exec .round s = .next { s with
      vars := ⟨T1 + T2, v.a, v.b, v.c, v.d + T1, v.e, v.f, v.g⟩
      t := s.t + 1#7
      PHASE := if s.t.toNat = 63 then Phase.fold else Phase.round }

/-- 44_compressor R200: FOLD adds `a..h` into `H[0..7]` and goes to FMT after the last block, else to LOADBLK of the
next. The case `j + 1 > N`, which no legal state has, takes the else arm and keeps `j`: read from the words of R200 and
marked in log 12. -/
def Obligations.FoldAddsIntoTheDigest : Prop :=
  ∀ s : State, s.PHASE = Phase.fold →
    exec .fold s = .next { s with
      H := #v[s.H[0] + s.vars.a, s.H[1] + s.vars.b, s.H[2] + s.vars.c, s.H[3] + s.vars.d,
              s.H[4] + s.vars.e, s.H[5] + s.vars.f, s.H[6] + s.vars.g, s.H[7] + s.vars.h]
      j := if s.j.toNat + 1 < s.N.toNat then s.j + 1#56 else s.j
      PHASE := if s.j.toNat + 1 = s.N.toNat then Phase.fmt else Phase.loadblk }

/-- 45_formatter R221: FMT writes `HEX8(H[0]) ++ ... ++ HEX8(H[7])` and goes to DONE. -/
def Obligations.FmtRendersTheDigest : Prop :=
  ∀ s : State, s.PHASE = Phase.fmt →
    ∃ v : Vector Byte 64,
      exec .fmt s = .next { s with HEX := v, PHASE := Phase.done } ∧
      v.toList = HEX8 s.H[0] ++ HEX8 s.H[1] ++ HEX8 s.H[2] ++ HEX8 s.H[3] ++
        HEX8 s.H[4] ++ HEX8 s.H[5] ++ HEX8 s.H[6] ++ HEX8 s.H[7] ∧
      ∀ (i : Fin 8) (m : Fin 8), v[8 * i.val + m.val] = HEXCHAR (s.H[i].extractLsb' (28 - 4 * m.val) 4)

/-- 46_hash_operation R236: an engine operation asked for in a phase that is not its own has no transition. -/
def Obligations.OperationsStopOutsideTheirPhase : Prop :=
  ∀ (i : Instr) (c : BitVec 4) (s : State), encode i = some c → s.PHASE ≠ c →
    exec i s = .refused (.notEnabled s.PHASE)

/-- The model's own stop (43_scheduler R171, R173, 44_compressor R195 give the operations no effect there): an index
outside the operation's range. -/
def Obligations.IndexOutsideTheRangeFaults : Prop :=
  ∀ s : State,
    (s.PHASE = Phase.schedLd → 15 < s.t.toNat → exec .schedLd s = .fault (.indexOutOfRange s.t.toNat)) ∧
    (s.PHASE = Phase.schedEx → (s.t.toNat < 16 ∨ 63 < s.t.toNat) →
      exec .schedEx s = .fault (.indexOutOfRange s.t.toNat)) ∧
    (s.PHASE = Phase.round → 63 < s.t.toNat → exec .round s = .fault (.indexOutOfRange s.t.toNat))

/-! ## HASH and runs of the engine -/

/-- 46_hash_operation R248, R249, R252 (3): HASH of a byte sequence within the limit completes in DONE with ERR = 0, the
value of the pure function `hash` in HEX and its digest in H, whatever the registers held before. That the host's moves
to come stay, the last clause, is about the model's own list of them (log 5). -/
def Obligations.HashComputesTheFunction : Prop :=
  ∀ (s : State) (msg : List Byte),
    (s.PHASE = Phase.idle ∨ s.PHASE = Phase.done ∨ s.PHASE = Phase.fault) → msg.length ≤ 2 ^ 61 - 1 →
    ∃ t, exec (.hash (.byteSeq msg)) s = .next t ∧ t.PHASE = Phase.done ∧ t.ERR = 0#1 ∧
      t.HEX.toList = functionalHash msg ∧ t.H = functionalDigest msg ∧
      t.N.toNat = blockCount msg.length ∧ t.ARG = .byteSeq msg ∧ t.host = s.host

/-- 46_hash_operation R248, R235, 60_exceptions R274, 93 U1, U2: HASH of an operand that is no byte sequence ends in
FAULT with `ERR = 1` and every other element as it was; beyond MAXLEN it is refused; while the engine is busy it has no
transition. -/
def Obligations.HashOfARejectedOperand : Prop :=
  ∀ s : State,
    ((s.PHASE = Phase.idle ∨ s.PHASE = Phase.done ∨ s.PHASE = Phase.fault) →
      exec (.hash .notByteSeq) s = .next { s with ARG := .notByteSeq, ERR := 1#1, PHASE := Phase.fault } ∧
      ∀ msg, 2 ^ 61 - 1 < msg.length → exec (.hash (.byteSeq msg)) s = .refused .lengthBeyondMaxlen) ∧
    (s.PHASE ≠ Phase.idle → s.PHASE ≠ Phase.done → s.PHASE ≠ Phase.fault →
      ∀ arg, exec (.hash arg) s = .refused .engineBusy)

/-- 46_hash_operation R248, 30_encoding R94: HASH is its expansion performed operation by operation, and for a byte
sequence the expansion is START and `131*N + 4` engine operations (beyond MAXLEN, where both forms are refused by CHECK,
the list's length means nothing, log 15). -/
def Obligations.HashPerformsItsExpansion : Prop :=
  (∀ (s : State) (arg : Arg), performAll (hashExpansion arg) { s with ARG := arg } = exec (.hash arg) s) ∧
  (∀ msg : List Byte, (hashExpansion (.byteSeq msg)).length = 1 + (131 * blockCount msg.length + 4))

/-- 10_state R41, 46_hash_operation R250 (b): the state an invocation ends in depends on the operand alone; nothing that
reset or an earlier invocation left is read. -/
def Obligations.InvocationDependsOnTheOperandAlone : Prop :=
  ∀ (s₁ s₂ : State) (msg : List Byte),
    (s₁.PHASE = Phase.idle ∨ s₁.PHASE = Phase.done ∨ s₁.PHASE = Phase.fault) →
    (s₂.PHASE = Phase.idle ∨ s₂.PHASE = Phase.done ∨ s₂.PHASE = Phase.fault) → s₁.host = s₂.host →
    exec (.hash (.byteSeq msg)) s₁ = exec (.hash (.byteSeq msg)) s₂

/-- 46_hash_operation R251: a started engine reaches DONE after exactly `131*N + 4` steps, and rests at none before. -/
def Obligations.StartedEngineFinishesOnCount : Prop :=
  ∀ (s : State) (msg : List Byte), s.PHASE = Phase.check → s.host = [] → s.ARG = .byteSeq msg →
    msg.length ≤ 2 ^ 61 - 1 →
    (∃ t, Host.Core.run Sys2Proof.core (131 * blockCount msg.length + 4) s = Host.Outcome.next t ∧
      State.PHASE t = Phase.done ∧ (State.HEX t).toList = functionalHash msg) ∧
    (∀ k < 131 * blockCount msg.length + 4,
      ∃ u, Host.Core.run Sys2Proof.core k s = Host.Outcome.next u ∧ State.isResting u = false)

/-- 44_compressor R200, R201, 46_hash_operation R252 (2): the 131 operations of a block fold `compress` of that block into
the digest state and leave PM, N, HEX, ERR and the operand. For `j + 1 > N`, which no legal state has, PHASE and `j`
follow the else arm, read from the words of R200 (log 12), and LOADBLK with `j ≥ N` acts on what PM holds (log 18). -/
def Obligations.BlockOperationsCompress : Prop :=
  ∀ (s : State) (v : Vector Byte 64), s.PHASE = Phase.loadblk → s.host = [] →
    (∀ i : Fin 64, s.PM.read (64 * s.j.toNat + i.val) = some v[i]) →
    ∃ t : State, Host.Core.run Sys2Proof.core 131 s = Host.Outcome.next t ∧
      t.H = functionalCompress s.H v.toList ∧
      t.PHASE = (if s.j.toNat + 1 = s.N.toNat then Phase.fmt else Phase.loadblk) ∧
      t.j = (if s.j.toNat + 1 < s.N.toNat then s.j + 1#56 else s.j) ∧
      t.PM = s.PM ∧ t.N = s.N ∧ t.HEX = s.HEX ∧ t.ERR = s.ERR ∧ t.ARG = s.ARG

/-- 43_scheduler R170, R172: after the load and the 64 schedule operations of a block, W is `schedule` of the block's
bytes, a function of the block alone. With `j ≥ N`, which no legal state has, LOADBLK acts on what PM holds: the model's
choice (log 18). -/
def Obligations.ScheduleIsAFunctionOfTheBlock : Prop :=
  ∀ (s : State) (v : Vector Byte 64), s.PHASE = Phase.loadblk → s.host = [] →
    (∀ i : Fin 64, s.PM.read (64 * s.j.toNat + i.val) = some v[i]) →
    ∃ t : State, Host.Core.run Sys2Proof.core 65 s = Host.Outcome.next t ∧ t.PHASE = Phase.cinit ∧
      t.W.toList = functionalSchedule v.toList ∧
      (∀ i : Fin 16, t.W[i.val] = BE32 v[4 * i.val] v[4 * i.val + 1] v[4 * i.val + 2] v[4 * i.val + 3]) ∧
      t.H = s.H ∧ t.vars = s.vars

/-! ## Who writes what: the frames of all operations together (HASH, which performs them all, apart) -/

/-- 10_state R21: `a..h` are written only by CINIT and ROUND. -/
def Obligations.WorkingVariablesHaveTwoWriters : Prop :=
  ∀ (i : Instr) (s t : State), exec i s = .next t → (∀ arg, i ≠ .hash arg) → i ≠ .cinit → i ≠ .round →
    t.vars = s.vars

/-- 10_state R22: `H[0..7]` is written only by INIT_H and FOLD. -/
def Obligations.DigestStateHasTwoWriters : Prop :=
  ∀ (i : Instr) (s t : State), exec i s = .next t → (∀ arg, i ≠ .hash arg) → i ≠ .initH → i ≠ .fold → t.H = s.H

/-- 10_state R24, 20_memory R59: W is written only by SCHED_LD and SCHED_EX, and they write the one word `W[t]`. -/
def Obligations.ScheduleHasTwoWriters : Prop :=
  ∀ (i : Instr) (s t : State), exec i s = .next t → (∀ arg, i ≠ .hash arg) →
    (i ≠ .schedLd → i ≠ .schedEx → t.W = s.W) ∧
    (∀ k : Fin 64, k.val ≠ s.t.toNat → t.W[k] = s.W[k])

/-- 10_state R25, R31, R32: BLK is written only by LOADBLK, PM (every byte of it) and N only by PAD. -/
def Obligations.BlockAndPaddedMessageHaveOneWriter : Prop :=
  ∀ (i : Instr) (s t : State), exec i s = .next t → (∀ arg, i ≠ .hash arg) →
    (i ≠ .loadblk → t.BLK = s.BLK) ∧
    (i ≠ .pad → t.N = s.N ∧ ∀ a, t.PM.read a = s.PM.read a)

/-- 10_state R33, R37: HEX is written only by FMT, ERR only by START and CHECK. -/
def Obligations.StringAndFaultCodeWriters : Prop :=
  ∀ (i : Instr) (s t : State), exec i s = .next t → (∀ arg, i ≠ .hash arg) →
    (i ≠ .fmt → t.HEX = s.HEX) ∧ (i ≠ .start → i ≠ .check → t.ERR = s.ERR)

/-- 10_state R20, R35: `j` is written only by INIT_H and FOLD, `t` only by LOADBLK, SCHED_LD, SCHED_EX, CINIT and
ROUND. -/
def Obligations.CountersHaveTheirWriters : Prop :=
  ∀ (i : Instr) (s t : State), exec i s = .next t → (∀ arg, i ≠ .hash arg) →
    (i ≠ .initH → i ≠ .fold → t.j = s.j) ∧
    (i ≠ .loadblk → i ≠ .schedLd → i ≠ .schedEx → i ≠ .cinit → i ≠ .round → t.t = s.t)

/-- 10_state R29, 20_memory R61, R66: no operation changes the operand; HASH presents its own operand and then keeps it.
That no operation changes the host's moves to come is about the model's own list of them (log 5). -/
def Obligations.OperandIsKept : Prop :=
  ∀ (i : Instr) (s t : State), exec i s = .next t →
    t.host = s.host ∧ ((∀ arg, i ≠ .hash arg) → t.ARG = s.ARG) ∧ (∀ arg, i = .hash arg → t.ARG = arg)

/-! ## The whole machine -/

/-- 46_hash_operation R236, R248: every operation that completes makes one of the transitions of the table; HASH, no row
of it, starts at rest and ends in DONE for a byte sequence, in FAULT for an operand that is none. -/
def Obligations.OperationsFollowTheTransitionTable : Prop :=
  ∀ (i : Instr) (s t : State), exec i s = .next t → allowedTransition i s t

/-- 60_exceptions R270, R274: only CHECK raises InvalidArgument. No other operation of the engine ends in FAULT or sets
ERR. -/
def Obligations.OnlyCheckTakesTheException : Prop :=
  ∀ (i : Instr) (s t : State), exec i s = .next t → (∀ arg, i ≠ .hash arg) →
    (t.PHASE = Phase.fault ∨ (s.ERR = 0#1 ∧ t.ERR = 1#1)) →
    i = .check ∧ s.ARG = .notByteSeq ∧ t = { s with ERR := 1#1, PHASE := Phase.fault }

/-- 10_state R43 (and the model's choices of log 1 and 2): the reset state is legal. -/
def Obligations.ResetStateIsLegal : Prop := State.reset.Legal

/-- 10_state R31, R32, R35 to R37, 30_encoding R97, 46_hash_operation R236 to R247: every step from a legal state ends in
a legal state, the host's own moves included (log 5). Among what Legal says: from INIT_H to FMT, PM is the padded message
of the operand and N its number of blocks; PM has the model's canonical form (log 2). -/
def Obligations.LegalStatesStayLegal : Prop :=
  ∀ s t : State, s.Legal → step s = .next t → t.Legal

/-- 60_exceptions R270, 46_hash_operation R251, 10_state R44: a legal state with an operand within the limit never
stops. Legal holds the model's canonical form (log 2), and the hypotheses name the model's list of host moves (log 5). -/
def Obligations.LegalStatesNeverStop : Prop :=
  ∀ s : State, s.Legal → (s.PHASE = Phase.check → s.ARG.withinLimit = true) → s.NextHashWithinLimit →
    ∃ t, step s = .next t

/-- Log 2: whatever the state, a step keeps PM in its canonical form. -/
def Obligations.PaddedMessageStaysCanonical : Prop :=
  ∀ s t : State, s.PM.wf → step s = .next t → t.PM.wf

/-! ## Formats and primitives -/

/-- 45_formatter R222, 40_primitives R125: the string is 64 lower-case hexadecimal characters for every digest, character
`8i + m` depends on four bits of `H[i]` only, and two digests are equal exactly when their strings are. The numeric
codes, 0x30 to 0x39 and 0x61 to 0x66, are the ASCII codes of 30_encoding R91, which the spec gives from general knowledge
(PRESUMED, log 9). -/
def Obligations.DigestStringIsFaithful : Prop :=
  (∀ (H : Vector Word 8) (i m : Fin 8),
    (digestString H)[8 * i.val + m.val] = HEXCHAR (H[i].extractLsb' (28 - 4 * m.val) 4)) ∧
  (∀ (H : Vector Word 8) (i : Fin 64),
    (0x30 ≤ (digestString H)[i].toNat ∧ (digestString H)[i].toNat ≤ 0x39) ∨
    (0x61 ≤ (digestString H)[i].toNat ∧ (digestString H)[i].toNat ≤ 0x66)) ∧
  (∀ H H' : Vector Word 8, digestString H = digestString H' ↔ H = H') ∧
  (∀ n : BitVec 4,
    (n.toNat ≤ 9 → (HEXCHAR n).toNat = 0x30 + n.toNat) ∧ (10 ≤ n.toNat → (HEXCHAR n).toNat = 0x57 + n.toNat))

/-- 40_primitives R110, R114, R116: addition modulo 2^32, the 32-bit complement, the logical shift, as numbers. -/
def Obligations.WordArithmeticIsUnsigned : Prop :=
  (∀ x y : Word, (ADD32 x y).toNat = (x.toNat + y.toNat) % 2 ^ 32) ∧
  (∀ x : Word, (NOT32 x).toNat = 0xffffffff - x.toNat) ∧
  (∀ (x : Word) (n : Nat), (SHR x n).toNat = x.toNat / 2 ^ n)

/-- 40_primitives R115: the rotation, as a number and bit by bit. -/
def Obligations.RotationKeepsEveryBit : Prop :=
  ∀ (x : Word) (n : Nat), n ≤ 31 →
    (ROTR x n).toNat = x.toNat / 2 ^ n + x.toNat % 2 ^ n * 2 ^ (32 - n) ∧
    ∀ i < 32, (ROTR x n).getLsbD i = x.getLsbD ((i + n) % 32)

/-- 40_primitives R117, R118: bit by bit, Ch selects between its second and third argument, Maj is the majority. -/
def Obligations.ChooseAndMajorityBitByBit : Prop :=
  ∀ (x y z : Word) (i : Nat), i < 32 →
    (Ch x y z).getLsbD i = (if x.getLsbD i = true then y.getLsbD i else z.getLsbD i) ∧
    ((Maj x y z).getLsbD i = true ↔
      2 ≤ (x.getLsbD i).toNat + (y.getLsbD i).toNat + (z.getLsbD i).toNat)

/-- 40_primitives R111, R123, R124, 20_memory R52: the conversions between bytes and wider values, as numbers. -/
def Obligations.ConversionsAreBigEndian : Prop :=
  (∀ b0 b1 b2 b3 : Byte,
    (BE32 b0 b1 b2 b3).toNat = b0.toNat * 2 ^ 24 + b1.toNat * 2 ^ 16 + b2.toNat * 2 ^ 8 + b3.toNat) ∧
  (∀ (v : BitVec 64) (m : Fin 8), ((BE64 v).map BitVec.toNat)[m.val]? = some (v.toNat / 2 ^ (56 - 8 * m.val) % 256)) ∧
  (∀ l : BitVec 61, (LEN8 l).toNat = l.toNat * 8)

/-- 44_compressor R196, 70_reset_and_hazards R305: the source's eight assignments one after another give the parallel
update. -/
def Obligations.SequentialRoundAgrees : Prop :=
  ∀ (v : Vars) (k w : Word), sequentialRound v k w = roundVars v k w

/-- 00_scope R13: MemRead after MemWrite of the same bytes gives the written value, and MemWrite leaves every byte
outside them. That MemWrite keeps the low `n` bytes of a wider value, acts past the end of a space, and that MemRead of no
byte gives 0 are the model's choices (log 16). -/
def Obligations.MemReadAfterMemWrite : Prop :=
  ∀ (m : Memory) (i n v : Nat), m.wf →
    (m.memWrite i n v).memRead i n = some (v % 256 ^ n) ∧
    ∀ a, (a < i ∨ i + n ≤ a) → (m.memWrite i n v).read a = m.read a

/-- 43_scheduler R171: the word SCHED_LD loads is `MemRead(BLK, 4t, 4)`. -/
def Obligations.LoadedWordIsMemRead : Prop :=
  ∀ (B : Vector Byte 64) (t : Nat) (h : t < 16),
    (Memory.ofBytes B.toList).memRead (4 * t) 4 = some (loadedWord B t h).toNat

/-- 40_primitives R119 to R122, R115, R116: the four sigmas bit by bit. Bit `i` is the exclusive or of the bits that its
three terms bring there: rotations for the two upper-case ones; two rotations and a shift, which brings in zeros, for the
two lower-case ones. -/
def Obligations.SigmasBitByBit : Prop :=
  ∀ (x : Word) (i : Nat), i < 32 →
    (BSIG0 x).getLsbD i =
      ((x.getLsbD ((i + 2) % 32) ^^ x.getLsbD ((i + 13) % 32)) ^^ x.getLsbD ((i + 22) % 32)) ∧
    (BSIG1 x).getLsbD i =
      ((x.getLsbD ((i + 6) % 32) ^^ x.getLsbD ((i + 11) % 32)) ^^ x.getLsbD ((i + 25) % 32)) ∧
    (SSIG0 x).getLsbD i =
      ((x.getLsbD ((i + 7) % 32) ^^ x.getLsbD ((i + 18) % 32)) ^^ (decide (i + 3 < 32) && x.getLsbD (i + 3))) ∧
    (SSIG1 x).getLsbD i =
      ((x.getLsbD ((i + 17) % 32) ^^ x.getLsbD ((i + 19) % 32)) ^^ (decide (i + 10 < 32) && x.getLsbD (i + 10)))

/-- 10_state R26, R27: the round constants are the 64 printed words, which the spec gives from general knowledge
(PRESUMED, log 3). That ROUND takes `K[t]` is RoundMixesTheVariables. -/
def Obligations.RoundConstantsAreThePrinted : Prop :=
  Config.K.toList =
    [0x428a2f98#32, 0x71374491#32, 0xb5c0fbcf#32, 0xe9b5dba5#32,
     0x3956c25b#32, 0x59f111f1#32, 0x923f82a4#32, 0xab1c5ed5#32] ++
    [0xd807aa98#32, 0x12835b01#32, 0x243185be#32, 0x550c7dc3#32,
     0x72be5d74#32, 0x80deb1fe#32, 0x9bdc06a7#32, 0xc19bf174#32] ++
    [0xe49b69c1#32, 0xefbe4786#32, 0x0fc19dc6#32, 0x240ca1cc#32,
     0x2de92c6f#32, 0x4a7484aa#32, 0x5cb0a9dc#32, 0x76f988da#32] ++
    [0x983e5152#32, 0xa831c66d#32, 0xb00327c8#32, 0xbf597fc7#32,
     0xc6e00bf3#32, 0xd5a79147#32, 0x06ca6351#32, 0x14292967#32] ++
    [0x27b70a85#32, 0x2e1b2138#32, 0x4d2c6dfc#32, 0x53380d13#32,
     0x650a7354#32, 0x766a0abb#32, 0x81c2c92e#32, 0x92722c85#32] ++
    [0xa2bfe8a1#32, 0xa81a664b#32, 0xc24b8b70#32, 0xc76c51a3#32,
     0xd192e819#32, 0xd6990624#32, 0xf40e3585#32, 0x106aa070#32] ++
    [0x19a4c116#32, 0x1e376c08#32, 0x2748774c#32, 0x34b0bcb5#32,
     0x391c0cb3#32, 0x4ed8aa4a#32, 0x5b9cca4f#32, 0x682e6ff3#32] ++
    [0x748f82ee#32, 0x78a5636f#32, 0x84c87814#32, 0x8cc70208#32,
     0x90befffa#32, 0xa4506ceb#32, 0xbef9a3f7#32, 0xc67178f2#32]

/-- 10_state R29, R39, R30 (log 4: LEN is a view of the presented operand, whose length it is; of an operand that is no byte
sequence, log 17, nothing is stated): for a byte sequence within
the limit LEN is its length, and it is what PAD writes, times 8, into the last eight bytes of PM. -/
def Obligations.LengthRegisterHoldsTheLength : Prop :=
  ∀ (s : State) (msg : List Byte), s.ARG = .byteSeq msg → msg.length ≤ 2 ^ 61 - 1 →
    s.LEN.toNat = msg.length ∧
    (s.PHASE = Phase.pad →
      ∃ t, exec .pad s = .next t ∧ t.PM.memRead (64 * t.N.toNat - 8) 8 = some (s.LEN.toNat * 8))

end Statements
end

