-- ==== Sys2Proof/Laws/Formats.lean ====
section
/-! SUPPORT. The digest string as a list, the padded message's length, and the counters as numbers. -/

namespace Sys2Proof.Machine

theorem HEX8_eq_ofFn (x : Word) : HEX8 x = List.ofFn fun m : Fin 8 => HEXCHAR (nibble x m.val) := by
  simp [HEX8, List.ofFn_succ]

theorem toList_eq_ofFn {α : Type} {n : Nat} (v : Vector α n) : v.toList = List.ofFn fun i : Fin n => v[i] := by
  apply List.ext_getElem <;> simp

/-- The string FMT writes is the eight words' characters one after another (45_formatter R221). -/
theorem digestString_toList (H : Vector Word 8) : (digestString H).toList = H.toList.flatMap HEX8 := by
  have h1 : (digestString H).toList =
      List.ofFn fun c : Fin (8 * 8) => HEXCHAR (nibble (H[c.val / 8]) (c.val % 8)) :=
    Vector.toList_ofFn
  rw [h1, List.ofFn_mul, toList_eq_ofFn H, List.flatMap_def, List.map_ofFn]
  refine congrArg List.flatten (congrArg List.ofFn (funext fun i => ?_))
  rw [Function.comp_apply, HEX8_eq_ofFn]
  refine congrArg List.ofFn (funext fun m => ?_)
  have e1 : (i.val * 8 + m.val) / 8 = i.val := by omega
  have e2 : (i.val * 8 + m.val) % 8 = m.val := by omega
  simp [e1, e2]

theorem paddedMessage_length (msg : List Byte) :
    (paddedMessage msg).length = msg.length + 9 + padZeros msg.length := by
  simp only [paddedMessage, BE64, List.length_append, List.length_cons, List.length_nil, List.length_replicate]
  omega

/-- The number of blocks PAD sets fits N's 56 bits (10_state R32). -/
theorem blockCount_le {l : Nat} (h : l ≤ Config.maxLen) : blockCount l ≤ 2 ^ 55 + 1 := by
  simp only [Config.maxLen] at h
  simp only [blockCount]
  omega

/-- An index equals its last value as a 7-bit register exactly when it does as a number. -/
theorem index_eq_iff (t : BitVec 7) (n : Nat) (hn : n < 128) : t = BitVec.ofNat 7 n ↔ t.toNat = n := by
  rw [← BitVec.toNat_inj, BitVec.toNat_ofNat, Nat.mod_eq_of_lt hn]

/-- Counting up does not wrap below 127 (10_state R35). -/
theorem index_succ_toNat {t : BitVec 7} (h : t.toNat < 127) : (t + 1#7).toNat = t.toNat + 1 := by
  rw [BitVec.toNat_add, BitVec.toNat_ofNat]
  omega

end Sys2Proof.Machine
end

