-- ==== Sys2Proof/Laws/Memory.lean ====
section
/-! SUPPORT. What the byte space's operations do: reads after writes, the cells of a byte sequence, and that every
operation keeps the canonical form. -/

namespace Sys2Proof.Machine

/-! ## Reading -/

@[simp] theorem Memory.read_nil (a : Nat) : Memory.read [] a = none := rfl

@[simp] theorem Memory.read_cons (k : Nat) (b : Byte) (m : Memory) (a : Nat) :
    Memory.read ((k, b) :: m) a = if k = a then some b else Memory.read m a := rfl

theorem Memory.read_eq_none_of_forall_ne {m : Memory} {a : Nat} (h : ∀ x ∈ m, x.1 ≠ a) :
    Memory.read m a = none := by
  induction m with
  | nil => rfl
  | cons x m ih =>
    obtain ⟨k, b⟩ := x
    rw [Memory.read_cons, if_neg (h (k, b) (by simp)), ih fun y hy => h y (by simp [hy])]

/-! ## Writing one byte -/

theorem Memory.read_write (m : Memory) (a c : Nat) (v : Byte) (hm : m.wf) :
    (m.write a v).read c = if a = c then some v else m.read c := by
  induction m with
  | nil => rfl
  | cons x m ih =>
    obtain ⟨k, b⟩ := x
    have hrest := (List.pairwise_cons.mp hm).1
    by_cases h1 : a < k
    · simp [Memory.write, h1]
    · by_cases h2 : a = k
      · subst h2
        by_cases hc : a = c
        · simp [Memory.write, hc]
        · simp [Memory.write, hc]
      · simp only [Memory.write, h1, h2, if_false, Memory.read_cons, ih (List.pairwise_cons.mp hm).2]
        by_cases hk : k = c
        · have : a ≠ c := by omega
          simp [hk, this]
        · simp [hk]

theorem Memory.read_write_same (m : Memory) (a : Nat) (v : Byte) (hm : m.wf) :
    (m.write a v).read a = some v := by
  rw [Memory.read_write m a a v hm, if_pos rfl]

theorem Memory.read_write_other (m : Memory) (a c : Nat) (v : Byte) (hm : m.wf) (h : a ≠ c) :
    (m.write a v).read c = m.read c := by
  rw [Memory.read_write m a c v hm, if_neg h]

theorem Memory.mem_write {m : Memory} {a : Nat} {v : Byte} {x : Host.Cell} (h : x ∈ m.write a v) :
    x = (a, v) ∨ x ∈ m := by
  induction m with
  | nil => simpa [Memory.write] using h
  | cons y m ih =>
    obtain ⟨k, b⟩ := y
    unfold Memory.write at h
    split at h
    · simpa using h
    · split at h
      · rcases List.mem_cons.mp h with h | h
        · exact .inl h
        · exact .inr (by simp [h])
      · rcases List.mem_cons.mp h with h | h
        · exact .inr (by simp [h])
        · rcases ih h with h | h
          · exact .inl h
          · exact .inr (by simp [h])

theorem Memory.write_wf (m : Memory) (a : Nat) (v : Byte) (hm : m.wf) : (m.write a v).wf := by
  induction m with
  | nil => simp [Memory.write, Memory.wf]
  | cons x m ih =>
    obtain ⟨k, b⟩ := x
    obtain ⟨hk, hm'⟩ := List.pairwise_cons.mp hm
    unfold Memory.write
    split
    · refine List.pairwise_cons.mpr ⟨fun y hy => ?_, hm⟩
      rcases List.mem_cons.mp hy with rfl | hy
      · assumption
      · have := hk y hy; simp only at this ⊢; omega
    · split
      · rename_i h
        subst h
        exact List.pairwise_cons.mpr ⟨hk, hm'⟩
      · refine List.pairwise_cons.mpr ⟨fun y hy => ?_, ih hm'⟩
        rcases Memory.mem_write hy with rfl | hy
        · simp only; omega
        · exact hk y hy

theorem Memory.memWrite_wf (m : Memory) (i n v : Nat) (hm : m.wf) : (m.memWrite i n v).wf := by
  induction n generalizing v with
  | zero => exact hm
  | succ n ih => exact Memory.write_wf _ _ _ (ih (v / 256))

/-! ## The cells of a byte sequence -/

theorem Memory.read_ofBytesFrom (bs : List Byte) (a i : Nat) :
    (Memory.ofBytesFrom a bs).read i = if a ≤ i then bs[i - a]? else none := by
  induction bs generalizing a with
  | nil => simp [Memory.ofBytesFrom]
  | cons b bs ih =>
    simp only [Memory.ofBytesFrom, Memory.read_cons, ih]
    by_cases h : a = i
    · simp [h]
    · by_cases h2 : a ≤ i
      · have h3 : i - a = (i - (a + 1)) + 1 := by omega
        have h4 : a + 1 ≤ i := by omega
        simp [h, h2, h3, h4]
      · have h4 : ¬ a + 1 ≤ i := by omega
        simp [h, h2, h4]

/-- Byte `i` of a byte sequence laid out from 0 is its `i`-th byte; beyond its length no byte holds a value. -/
@[simp] theorem Memory.read_ofBytes (bs : List Byte) (i : Nat) : (Memory.ofBytes bs).read i = bs[i]? := by
  simp [Memory.ofBytes, Memory.read_ofBytesFrom]

theorem Memory.map_fst_ofBytesFrom (bs : List Byte) (a : Nat) :
    (Memory.ofBytesFrom a bs).map Prod.fst = List.range' a bs.length := by
  induction bs generalizing a with
  | nil => rfl
  | cons b bs ih => simp [Memory.ofBytesFrom, ih, List.range'_succ]

/-- The indices of a byte sequence are 0 to its length minus 1, in order. -/
theorem Memory.map_fst_ofBytes (bs : List Byte) :
    (Memory.ofBytes bs).map Prod.fst = List.range bs.length := by
  rw [Memory.ofBytes, Memory.map_fst_ofBytesFrom, List.range_eq_range']

/-- Indices that are those of a whole sequence are in canonical form. -/
theorem Memory.wf_of_map_fst {m : Memory} {n : Nat} (h : m.map Prod.fst = List.range n) : m.wf := by
  have := List.pairwise_lt_range (n := n)
  rw [← h, List.pairwise_map] at this
  exact this

theorem Memory.ofBytes_wf (bs : List Byte) : (Memory.ofBytes bs).wf :=
  Memory.wf_of_map_fst (Memory.map_fst_ofBytes bs)

/-- Every index of a whole sequence holds a value. -/
theorem Memory.read_isSome_of_map_fst {m : Memory} {n i : Nat} (h : m.map Prod.fst = List.range n) (hi : i < n) :
    (m.read i).isSome := by
  have hmem : i ∈ m.map Prod.fst := by rw [h]; exact List.mem_range.mpr hi
  clear h hi
  induction m with
  | nil => simp at hmem
  | cons x m ih =>
    obtain ⟨k, b⟩ := x
    rw [Memory.read_cons]
    by_cases hk : k = i
    · simp [hk]
    · rw [if_neg hk]
      refine ih ?_
      rcases List.mem_cons.mp (by simpa using hmem : i ∈ k :: m.map Prod.fst) with h | h
      · exact absurd h.symm hk
      · exact h

/-! ## Reading a block -/

theorem Memory.firstMissing_eq_none_iff (m : Memory) (a n : Nat) :
    m.firstMissing a n = none ↔ ∀ i < n, (m.read (a + i)).isSome := by
  simp [Memory.firstMissing, List.find?_eq_none, Option.isSome_iff_ne_none]

theorem Memory.firstMissing_eq_some {m : Memory} {a n r : Nat} (h : m.firstMissing a n = some r) :
    ∃ i < n, r = a + i ∧ m.read r = none := by
  obtain ⟨i, hi, rfl⟩ := Option.map_eq_some_iff.mp h
  have h1 := List.mem_range.mp (List.mem_of_find?_eq_some hi)
  have h2 := List.find?_some hi
  exact ⟨i, h1, rfl, by simpa using h2⟩

/-- Where PM holds the bytes of block `j`, they are what LOADBLK loads. -/
theorem blockOf_eq {m : Memory} {j : Nat} {v : Vector Byte 64}
    (h : ∀ i : Fin 64, m.read (64 * j + i.val) = some v[i]) : blockOf m j = v := by
  ext i hi
  have := h ⟨i, hi⟩
  simp only [Fin.getElem_fin] at this
  simp [blockOf, blockIndex, this]

end Sys2Proof.Machine
end

