-- ==== Sys2Proof/Laws/State.lean ====
section
/-! SUPPORT. One lemma per element of the state and per update (set<Element>_<element read>), so that no later proof
unfolds a record update; the composed updates after them. Each proof is written `(rfl)`, so that simp and rw take the lemma
as an equation: as a definitional step a chain of updates would be compared layer by layer, element by element. -/

namespace Sys2Proof.Machine

variable (s : State)

/-! ## Each update as a record update: rewrite with these, where `rfl` would evaluate the value written -/

theorem State.setVars_def (v : Vars) : s.setVars v = (State.mk v s.H s.W s.BLK s.PM s.N s.HEX s.PHASE s.j s.t s.ERR s.ARG s.host) := (rfl)
theorem State.setH_def (v : Vector Word 8) : s.setH v = (State.mk s.vars v s.W s.BLK s.PM s.N s.HEX s.PHASE s.j s.t s.ERR s.ARG s.host) := (rfl)
theorem State.setW_def (v : Vector Word 64) : s.setW v = (State.mk s.vars s.H v s.BLK s.PM s.N s.HEX s.PHASE s.j s.t s.ERR s.ARG s.host) := (rfl)
theorem State.setBLK_def (v : Vector Byte 64) : s.setBLK v = (State.mk s.vars s.H s.W v s.PM s.N s.HEX s.PHASE s.j s.t s.ERR s.ARG s.host) := (rfl)
theorem State.setPM_def (v : Memory) : s.setPM v = (State.mk s.vars s.H s.W s.BLK v s.N s.HEX s.PHASE s.j s.t s.ERR s.ARG s.host) := (rfl)
theorem State.setN_def (v : BitVec 56) : s.setN v = (State.mk s.vars s.H s.W s.BLK s.PM v s.HEX s.PHASE s.j s.t s.ERR s.ARG s.host) := (rfl)
theorem State.setHEX_def (v : Vector Byte 64) : s.setHEX v = (State.mk s.vars s.H s.W s.BLK s.PM s.N v s.PHASE s.j s.t s.ERR s.ARG s.host) := (rfl)
theorem State.setPHASE_def (v : BitVec 4) : s.setPHASE v = (State.mk s.vars s.H s.W s.BLK s.PM s.N s.HEX v s.j s.t s.ERR s.ARG s.host) := (rfl)
theorem State.setJ_def (v : BitVec 56) : s.setJ v = (State.mk s.vars s.H s.W s.BLK s.PM s.N s.HEX s.PHASE v s.t s.ERR s.ARG s.host) := (rfl)
theorem State.setT_def (v : BitVec 7) : s.setT v = (State.mk s.vars s.H s.W s.BLK s.PM s.N s.HEX s.PHASE s.j v s.ERR s.ARG s.host) := (rfl)
theorem State.setERR_def (v : BitVec 1) : s.setERR v = (State.mk s.vars s.H s.W s.BLK s.PM s.N s.HEX s.PHASE s.j s.t v s.ARG s.host) := (rfl)
theorem State.setARG_def (v : Arg) : s.setARG v = (State.mk s.vars s.H s.W s.BLK s.PM s.N s.HEX s.PHASE s.j s.t s.ERR v s.host) := (rfl)
theorem State.setHost_def (v : List HostMove) : s.setHost v = (State.mk s.vars s.H s.W s.BLK s.PM s.N s.HEX s.PHASE s.j s.t s.ERR s.ARG v) := (rfl)

/-! ## After setVars -/

@[simp] theorem State.setVars_vars (v : Vars) : (s.setVars v).vars = v := (rfl)
@[simp] theorem State.setVars_H (v : Vars) : (s.setVars v).H = s.H := (rfl)
@[simp] theorem State.setVars_W (v : Vars) : (s.setVars v).W = s.W := (rfl)
@[simp] theorem State.setVars_BLK (v : Vars) : (s.setVars v).BLK = s.BLK := (rfl)
@[simp] theorem State.setVars_PM (v : Vars) : (s.setVars v).PM = s.PM := (rfl)
@[simp] theorem State.setVars_N (v : Vars) : (s.setVars v).N = s.N := (rfl)
@[simp] theorem State.setVars_HEX (v : Vars) : (s.setVars v).HEX = s.HEX := (rfl)
@[simp] theorem State.setVars_PHASE (v : Vars) : (s.setVars v).PHASE = s.PHASE := (rfl)
@[simp] theorem State.setVars_j (v : Vars) : (s.setVars v).j = s.j := (rfl)
@[simp] theorem State.setVars_t (v : Vars) : (s.setVars v).t = s.t := (rfl)
@[simp] theorem State.setVars_ERR (v : Vars) : (s.setVars v).ERR = s.ERR := (rfl)
@[simp] theorem State.setVars_ARG (v : Vars) : (s.setVars v).ARG = s.ARG := (rfl)
@[simp] theorem State.setVars_host (v : Vars) : (s.setVars v).host = s.host := (rfl)

/-! ## After setH -/

@[simp] theorem State.setH_vars (v : Vector Word 8) : (s.setH v).vars = s.vars := (rfl)
@[simp] theorem State.setH_H (v : Vector Word 8) : (s.setH v).H = v := (rfl)
@[simp] theorem State.setH_W (v : Vector Word 8) : (s.setH v).W = s.W := (rfl)
@[simp] theorem State.setH_BLK (v : Vector Word 8) : (s.setH v).BLK = s.BLK := (rfl)
@[simp] theorem State.setH_PM (v : Vector Word 8) : (s.setH v).PM = s.PM := (rfl)
@[simp] theorem State.setH_N (v : Vector Word 8) : (s.setH v).N = s.N := (rfl)
@[simp] theorem State.setH_HEX (v : Vector Word 8) : (s.setH v).HEX = s.HEX := (rfl)
@[simp] theorem State.setH_PHASE (v : Vector Word 8) : (s.setH v).PHASE = s.PHASE := (rfl)
@[simp] theorem State.setH_j (v : Vector Word 8) : (s.setH v).j = s.j := (rfl)
@[simp] theorem State.setH_t (v : Vector Word 8) : (s.setH v).t = s.t := (rfl)
@[simp] theorem State.setH_ERR (v : Vector Word 8) : (s.setH v).ERR = s.ERR := (rfl)
@[simp] theorem State.setH_ARG (v : Vector Word 8) : (s.setH v).ARG = s.ARG := (rfl)
@[simp] theorem State.setH_host (v : Vector Word 8) : (s.setH v).host = s.host := (rfl)

/-! ## After setW -/

@[simp] theorem State.setW_vars (v : Vector Word 64) : (s.setW v).vars = s.vars := (rfl)
@[simp] theorem State.setW_H (v : Vector Word 64) : (s.setW v).H = s.H := (rfl)
@[simp] theorem State.setW_W (v : Vector Word 64) : (s.setW v).W = v := (rfl)
@[simp] theorem State.setW_BLK (v : Vector Word 64) : (s.setW v).BLK = s.BLK := (rfl)
@[simp] theorem State.setW_PM (v : Vector Word 64) : (s.setW v).PM = s.PM := (rfl)
@[simp] theorem State.setW_N (v : Vector Word 64) : (s.setW v).N = s.N := (rfl)
@[simp] theorem State.setW_HEX (v : Vector Word 64) : (s.setW v).HEX = s.HEX := (rfl)
@[simp] theorem State.setW_PHASE (v : Vector Word 64) : (s.setW v).PHASE = s.PHASE := (rfl)
@[simp] theorem State.setW_j (v : Vector Word 64) : (s.setW v).j = s.j := (rfl)
@[simp] theorem State.setW_t (v : Vector Word 64) : (s.setW v).t = s.t := (rfl)
@[simp] theorem State.setW_ERR (v : Vector Word 64) : (s.setW v).ERR = s.ERR := (rfl)
@[simp] theorem State.setW_ARG (v : Vector Word 64) : (s.setW v).ARG = s.ARG := (rfl)
@[simp] theorem State.setW_host (v : Vector Word 64) : (s.setW v).host = s.host := (rfl)

/-! ## After setBLK -/

@[simp] theorem State.setBLK_vars (v : Vector Byte 64) : (s.setBLK v).vars = s.vars := (rfl)
@[simp] theorem State.setBLK_H (v : Vector Byte 64) : (s.setBLK v).H = s.H := (rfl)
@[simp] theorem State.setBLK_W (v : Vector Byte 64) : (s.setBLK v).W = s.W := (rfl)
@[simp] theorem State.setBLK_BLK (v : Vector Byte 64) : (s.setBLK v).BLK = v := (rfl)
@[simp] theorem State.setBLK_PM (v : Vector Byte 64) : (s.setBLK v).PM = s.PM := (rfl)
@[simp] theorem State.setBLK_N (v : Vector Byte 64) : (s.setBLK v).N = s.N := (rfl)
@[simp] theorem State.setBLK_HEX (v : Vector Byte 64) : (s.setBLK v).HEX = s.HEX := (rfl)
@[simp] theorem State.setBLK_PHASE (v : Vector Byte 64) : (s.setBLK v).PHASE = s.PHASE := (rfl)
@[simp] theorem State.setBLK_j (v : Vector Byte 64) : (s.setBLK v).j = s.j := (rfl)
@[simp] theorem State.setBLK_t (v : Vector Byte 64) : (s.setBLK v).t = s.t := (rfl)
@[simp] theorem State.setBLK_ERR (v : Vector Byte 64) : (s.setBLK v).ERR = s.ERR := (rfl)
@[simp] theorem State.setBLK_ARG (v : Vector Byte 64) : (s.setBLK v).ARG = s.ARG := (rfl)
@[simp] theorem State.setBLK_host (v : Vector Byte 64) : (s.setBLK v).host = s.host := (rfl)

/-! ## After setPM -/

@[simp] theorem State.setPM_vars (v : Memory) : (s.setPM v).vars = s.vars := (rfl)
@[simp] theorem State.setPM_H (v : Memory) : (s.setPM v).H = s.H := (rfl)
@[simp] theorem State.setPM_W (v : Memory) : (s.setPM v).W = s.W := (rfl)
@[simp] theorem State.setPM_BLK (v : Memory) : (s.setPM v).BLK = s.BLK := (rfl)
@[simp] theorem State.setPM_PM (v : Memory) : (s.setPM v).PM = v := (rfl)
@[simp] theorem State.setPM_N (v : Memory) : (s.setPM v).N = s.N := (rfl)
@[simp] theorem State.setPM_HEX (v : Memory) : (s.setPM v).HEX = s.HEX := (rfl)
@[simp] theorem State.setPM_PHASE (v : Memory) : (s.setPM v).PHASE = s.PHASE := (rfl)
@[simp] theorem State.setPM_j (v : Memory) : (s.setPM v).j = s.j := (rfl)
@[simp] theorem State.setPM_t (v : Memory) : (s.setPM v).t = s.t := (rfl)
@[simp] theorem State.setPM_ERR (v : Memory) : (s.setPM v).ERR = s.ERR := (rfl)
@[simp] theorem State.setPM_ARG (v : Memory) : (s.setPM v).ARG = s.ARG := (rfl)
@[simp] theorem State.setPM_host (v : Memory) : (s.setPM v).host = s.host := (rfl)

/-! ## After setN -/

@[simp] theorem State.setN_vars (v : BitVec 56) : (s.setN v).vars = s.vars := (rfl)
@[simp] theorem State.setN_H (v : BitVec 56) : (s.setN v).H = s.H := (rfl)
@[simp] theorem State.setN_W (v : BitVec 56) : (s.setN v).W = s.W := (rfl)
@[simp] theorem State.setN_BLK (v : BitVec 56) : (s.setN v).BLK = s.BLK := (rfl)
@[simp] theorem State.setN_PM (v : BitVec 56) : (s.setN v).PM = s.PM := (rfl)
@[simp] theorem State.setN_N (v : BitVec 56) : (s.setN v).N = v := (rfl)
@[simp] theorem State.setN_HEX (v : BitVec 56) : (s.setN v).HEX = s.HEX := (rfl)
@[simp] theorem State.setN_PHASE (v : BitVec 56) : (s.setN v).PHASE = s.PHASE := (rfl)
@[simp] theorem State.setN_j (v : BitVec 56) : (s.setN v).j = s.j := (rfl)
@[simp] theorem State.setN_t (v : BitVec 56) : (s.setN v).t = s.t := (rfl)
@[simp] theorem State.setN_ERR (v : BitVec 56) : (s.setN v).ERR = s.ERR := (rfl)
@[simp] theorem State.setN_ARG (v : BitVec 56) : (s.setN v).ARG = s.ARG := (rfl)
@[simp] theorem State.setN_host (v : BitVec 56) : (s.setN v).host = s.host := (rfl)

/-! ## After setHEX -/

@[simp] theorem State.setHEX_vars (v : Vector Byte 64) : (s.setHEX v).vars = s.vars := (rfl)
@[simp] theorem State.setHEX_H (v : Vector Byte 64) : (s.setHEX v).H = s.H := (rfl)
@[simp] theorem State.setHEX_W (v : Vector Byte 64) : (s.setHEX v).W = s.W := (rfl)
@[simp] theorem State.setHEX_BLK (v : Vector Byte 64) : (s.setHEX v).BLK = s.BLK := (rfl)
@[simp] theorem State.setHEX_PM (v : Vector Byte 64) : (s.setHEX v).PM = s.PM := (rfl)
@[simp] theorem State.setHEX_N (v : Vector Byte 64) : (s.setHEX v).N = s.N := (rfl)
@[simp] theorem State.setHEX_HEX (v : Vector Byte 64) : (s.setHEX v).HEX = v := (rfl)
@[simp] theorem State.setHEX_PHASE (v : Vector Byte 64) : (s.setHEX v).PHASE = s.PHASE := (rfl)
@[simp] theorem State.setHEX_j (v : Vector Byte 64) : (s.setHEX v).j = s.j := (rfl)
@[simp] theorem State.setHEX_t (v : Vector Byte 64) : (s.setHEX v).t = s.t := (rfl)
@[simp] theorem State.setHEX_ERR (v : Vector Byte 64) : (s.setHEX v).ERR = s.ERR := (rfl)
@[simp] theorem State.setHEX_ARG (v : Vector Byte 64) : (s.setHEX v).ARG = s.ARG := (rfl)
@[simp] theorem State.setHEX_host (v : Vector Byte 64) : (s.setHEX v).host = s.host := (rfl)

/-! ## After setPHASE -/

@[simp] theorem State.setPHASE_vars (v : BitVec 4) : (s.setPHASE v).vars = s.vars := (rfl)
@[simp] theorem State.setPHASE_H (v : BitVec 4) : (s.setPHASE v).H = s.H := (rfl)
@[simp] theorem State.setPHASE_W (v : BitVec 4) : (s.setPHASE v).W = s.W := (rfl)
@[simp] theorem State.setPHASE_BLK (v : BitVec 4) : (s.setPHASE v).BLK = s.BLK := (rfl)
@[simp] theorem State.setPHASE_PM (v : BitVec 4) : (s.setPHASE v).PM = s.PM := (rfl)
@[simp] theorem State.setPHASE_N (v : BitVec 4) : (s.setPHASE v).N = s.N := (rfl)
@[simp] theorem State.setPHASE_HEX (v : BitVec 4) : (s.setPHASE v).HEX = s.HEX := (rfl)
@[simp] theorem State.setPHASE_PHASE (v : BitVec 4) : (s.setPHASE v).PHASE = v := (rfl)
@[simp] theorem State.setPHASE_j (v : BitVec 4) : (s.setPHASE v).j = s.j := (rfl)
@[simp] theorem State.setPHASE_t (v : BitVec 4) : (s.setPHASE v).t = s.t := (rfl)
@[simp] theorem State.setPHASE_ERR (v : BitVec 4) : (s.setPHASE v).ERR = s.ERR := (rfl)
@[simp] theorem State.setPHASE_ARG (v : BitVec 4) : (s.setPHASE v).ARG = s.ARG := (rfl)
@[simp] theorem State.setPHASE_host (v : BitVec 4) : (s.setPHASE v).host = s.host := (rfl)

/-! ## After setJ -/

@[simp] theorem State.setJ_vars (v : BitVec 56) : (s.setJ v).vars = s.vars := (rfl)
@[simp] theorem State.setJ_H (v : BitVec 56) : (s.setJ v).H = s.H := (rfl)
@[simp] theorem State.setJ_W (v : BitVec 56) : (s.setJ v).W = s.W := (rfl)
@[simp] theorem State.setJ_BLK (v : BitVec 56) : (s.setJ v).BLK = s.BLK := (rfl)
@[simp] theorem State.setJ_PM (v : BitVec 56) : (s.setJ v).PM = s.PM := (rfl)
@[simp] theorem State.setJ_N (v : BitVec 56) : (s.setJ v).N = s.N := (rfl)
@[simp] theorem State.setJ_HEX (v : BitVec 56) : (s.setJ v).HEX = s.HEX := (rfl)
@[simp] theorem State.setJ_PHASE (v : BitVec 56) : (s.setJ v).PHASE = s.PHASE := (rfl)
@[simp] theorem State.setJ_j (v : BitVec 56) : (s.setJ v).j = v := (rfl)
@[simp] theorem State.setJ_t (v : BitVec 56) : (s.setJ v).t = s.t := (rfl)
@[simp] theorem State.setJ_ERR (v : BitVec 56) : (s.setJ v).ERR = s.ERR := (rfl)
@[simp] theorem State.setJ_ARG (v : BitVec 56) : (s.setJ v).ARG = s.ARG := (rfl)
@[simp] theorem State.setJ_host (v : BitVec 56) : (s.setJ v).host = s.host := (rfl)

/-! ## After setT -/

@[simp] theorem State.setT_vars (v : BitVec 7) : (s.setT v).vars = s.vars := (rfl)
@[simp] theorem State.setT_H (v : BitVec 7) : (s.setT v).H = s.H := (rfl)
@[simp] theorem State.setT_W (v : BitVec 7) : (s.setT v).W = s.W := (rfl)
@[simp] theorem State.setT_BLK (v : BitVec 7) : (s.setT v).BLK = s.BLK := (rfl)
@[simp] theorem State.setT_PM (v : BitVec 7) : (s.setT v).PM = s.PM := (rfl)
@[simp] theorem State.setT_N (v : BitVec 7) : (s.setT v).N = s.N := (rfl)
@[simp] theorem State.setT_HEX (v : BitVec 7) : (s.setT v).HEX = s.HEX := (rfl)
@[simp] theorem State.setT_PHASE (v : BitVec 7) : (s.setT v).PHASE = s.PHASE := (rfl)
@[simp] theorem State.setT_j (v : BitVec 7) : (s.setT v).j = s.j := (rfl)
@[simp] theorem State.setT_t (v : BitVec 7) : (s.setT v).t = v := (rfl)
@[simp] theorem State.setT_ERR (v : BitVec 7) : (s.setT v).ERR = s.ERR := (rfl)
@[simp] theorem State.setT_ARG (v : BitVec 7) : (s.setT v).ARG = s.ARG := (rfl)
@[simp] theorem State.setT_host (v : BitVec 7) : (s.setT v).host = s.host := (rfl)

/-! ## After setERR -/

@[simp] theorem State.setERR_vars (v : BitVec 1) : (s.setERR v).vars = s.vars := (rfl)
@[simp] theorem State.setERR_H (v : BitVec 1) : (s.setERR v).H = s.H := (rfl)
@[simp] theorem State.setERR_W (v : BitVec 1) : (s.setERR v).W = s.W := (rfl)
@[simp] theorem State.setERR_BLK (v : BitVec 1) : (s.setERR v).BLK = s.BLK := (rfl)
@[simp] theorem State.setERR_PM (v : BitVec 1) : (s.setERR v).PM = s.PM := (rfl)
@[simp] theorem State.setERR_N (v : BitVec 1) : (s.setERR v).N = s.N := (rfl)
@[simp] theorem State.setERR_HEX (v : BitVec 1) : (s.setERR v).HEX = s.HEX := (rfl)
@[simp] theorem State.setERR_PHASE (v : BitVec 1) : (s.setERR v).PHASE = s.PHASE := (rfl)
@[simp] theorem State.setERR_j (v : BitVec 1) : (s.setERR v).j = s.j := (rfl)
@[simp] theorem State.setERR_t (v : BitVec 1) : (s.setERR v).t = s.t := (rfl)
@[simp] theorem State.setERR_ERR (v : BitVec 1) : (s.setERR v).ERR = v := (rfl)
@[simp] theorem State.setERR_ARG (v : BitVec 1) : (s.setERR v).ARG = s.ARG := (rfl)
@[simp] theorem State.setERR_host (v : BitVec 1) : (s.setERR v).host = s.host := (rfl)

/-! ## After setARG -/

@[simp] theorem State.setARG_vars (v : Arg) : (s.setARG v).vars = s.vars := (rfl)
@[simp] theorem State.setARG_H (v : Arg) : (s.setARG v).H = s.H := (rfl)
@[simp] theorem State.setARG_W (v : Arg) : (s.setARG v).W = s.W := (rfl)
@[simp] theorem State.setARG_BLK (v : Arg) : (s.setARG v).BLK = s.BLK := (rfl)
@[simp] theorem State.setARG_PM (v : Arg) : (s.setARG v).PM = s.PM := (rfl)
@[simp] theorem State.setARG_N (v : Arg) : (s.setARG v).N = s.N := (rfl)
@[simp] theorem State.setARG_HEX (v : Arg) : (s.setARG v).HEX = s.HEX := (rfl)
@[simp] theorem State.setARG_PHASE (v : Arg) : (s.setARG v).PHASE = s.PHASE := (rfl)
@[simp] theorem State.setARG_j (v : Arg) : (s.setARG v).j = s.j := (rfl)
@[simp] theorem State.setARG_t (v : Arg) : (s.setARG v).t = s.t := (rfl)
@[simp] theorem State.setARG_ERR (v : Arg) : (s.setARG v).ERR = s.ERR := (rfl)
@[simp] theorem State.setARG_ARG (v : Arg) : (s.setARG v).ARG = v := (rfl)
@[simp] theorem State.setARG_host (v : Arg) : (s.setARG v).host = s.host := (rfl)

/-! ## After setHost -/

@[simp] theorem State.setHost_vars (v : List HostMove) : (s.setHost v).vars = s.vars := (rfl)
@[simp] theorem State.setHost_H (v : List HostMove) : (s.setHost v).H = s.H := (rfl)
@[simp] theorem State.setHost_W (v : List HostMove) : (s.setHost v).W = s.W := (rfl)
@[simp] theorem State.setHost_BLK (v : List HostMove) : (s.setHost v).BLK = s.BLK := (rfl)
@[simp] theorem State.setHost_PM (v : List HostMove) : (s.setHost v).PM = s.PM := (rfl)
@[simp] theorem State.setHost_N (v : List HostMove) : (s.setHost v).N = s.N := (rfl)
@[simp] theorem State.setHost_HEX (v : List HostMove) : (s.setHost v).HEX = s.HEX := (rfl)
@[simp] theorem State.setHost_PHASE (v : List HostMove) : (s.setHost v).PHASE = s.PHASE := (rfl)
@[simp] theorem State.setHost_j (v : List HostMove) : (s.setHost v).j = s.j := (rfl)
@[simp] theorem State.setHost_t (v : List HostMove) : (s.setHost v).t = s.t := (rfl)
@[simp] theorem State.setHost_ERR (v : List HostMove) : (s.setHost v).ERR = s.ERR := (rfl)
@[simp] theorem State.setHost_ARG (v : List HostMove) : (s.setHost v).ARG = s.ARG := (rfl)
@[simp] theorem State.setHost_host (v : List HostMove) : (s.setHost v).host = v := (rfl)

/-! ## After the composed updates: only ERR and PHASE change -/

@[simp] theorem State.raiseInvalidArgument_vars : s.raiseInvalidArgument.vars = s.vars := (rfl)
@[simp] theorem State.raiseInvalidArgument_H : s.raiseInvalidArgument.H = s.H := (rfl)
@[simp] theorem State.raiseInvalidArgument_W : s.raiseInvalidArgument.W = s.W := (rfl)
@[simp] theorem State.raiseInvalidArgument_BLK : s.raiseInvalidArgument.BLK = s.BLK := (rfl)
@[simp] theorem State.raiseInvalidArgument_PM : s.raiseInvalidArgument.PM = s.PM := (rfl)
@[simp] theorem State.raiseInvalidArgument_N : s.raiseInvalidArgument.N = s.N := (rfl)
@[simp] theorem State.raiseInvalidArgument_HEX : s.raiseInvalidArgument.HEX = s.HEX := (rfl)
@[simp] theorem State.raiseInvalidArgument_PHASE : s.raiseInvalidArgument.PHASE = Phase.fault := (rfl)
@[simp] theorem State.raiseInvalidArgument_j : s.raiseInvalidArgument.j = s.j := (rfl)
@[simp] theorem State.raiseInvalidArgument_t : s.raiseInvalidArgument.t = s.t := (rfl)
@[simp] theorem State.raiseInvalidArgument_ERR : s.raiseInvalidArgument.ERR = 1#1 := (rfl)
@[simp] theorem State.raiseInvalidArgument_ARG : s.raiseInvalidArgument.ARG = s.ARG := (rfl)
@[simp] theorem State.raiseInvalidArgument_host : s.raiseInvalidArgument.host = s.host := (rfl)

@[simp] theorem State.startCommand_vars : s.startCommand.vars = s.vars := (rfl)
@[simp] theorem State.startCommand_H : s.startCommand.H = s.H := (rfl)
@[simp] theorem State.startCommand_W : s.startCommand.W = s.W := (rfl)
@[simp] theorem State.startCommand_BLK : s.startCommand.BLK = s.BLK := (rfl)
@[simp] theorem State.startCommand_PM : s.startCommand.PM = s.PM := (rfl)
@[simp] theorem State.startCommand_N : s.startCommand.N = s.N := (rfl)
@[simp] theorem State.startCommand_HEX : s.startCommand.HEX = s.HEX := (rfl)
@[simp] theorem State.startCommand_PHASE : s.startCommand.PHASE = Phase.check := (rfl)
@[simp] theorem State.startCommand_j : s.startCommand.j = s.j := (rfl)
@[simp] theorem State.startCommand_t : s.startCommand.t = s.t := (rfl)
@[simp] theorem State.startCommand_ERR : s.startCommand.ERR = 0#1 := (rfl)
@[simp] theorem State.startCommand_ARG : s.startCommand.ARG = s.ARG := (rfl)
@[simp] theorem State.startCommand_host : s.startCommand.host = s.host := (rfl)

end Sys2Proof.Machine
end

