-- ==== Sys2Proof/Laws/Operations.lean ====
section
/-! SUPPORT. What each shared operation and each meaning can answer, once: when it answers a next state and which
(`exec<Op>_next`), when it faults (`exec<Op>_fault`), so that no later proof unfolds a meaning. -/

namespace Sys2Proof.Machine

variable {s t : State}

/-! ## The arms of exec -/

@[simp] theorem exec_start : exec .start s = execStart s := rfl
@[simp] theorem exec_check : exec .check s = execCheck s := rfl
@[simp] theorem exec_pad : exec .pad s = execPad s := rfl
@[simp] theorem exec_initH : exec .initH s = execInitH s := rfl
@[simp] theorem exec_loadblk : exec .loadblk s = execLoadblk s := rfl
@[simp] theorem exec_schedLd : exec .schedLd s = execSchedLd s := rfl
@[simp] theorem exec_schedEx : exec .schedEx s = execSchedEx s := rfl
@[simp] theorem exec_cinit : exec .cinit s = execCinit s := rfl
@[simp] theorem exec_round : exec .round s = execRound s := rfl
@[simp] theorem exec_fold : exec .fold s = execFold s := rfl
@[simp] theorem exec_fmt : exec .fmt s = execFmt s := rfl
@[simp] theorem exec_hash {arg : Arg} : exec (.hash arg) s = execHash arg s := rfl

theorem next_eq_next_iff {u : State} : (Host.Outcome.next u : Result) = .next t ↔ t = u := by
  rw [Host.Outcome.next.injEq, eq_comm]

/-! ## The shared gates -/

theorem State.whenEnabled_next {p : BitVec 4} {r : Result} :
    s.whenEnabled p r = .next t ↔ s.PHASE = p ∧ r = .next t := by
  unfold State.whenEnabled
  split <;> simp_all

theorem State.whenEnabled_fault {p : BitVec 4} {r : Result} {f : Fault} :
    s.whenEnabled p r = .fault f ↔ s.PHASE = p ∧ r = .fault f := by
  unfold State.whenEnabled
  split <;> simp_all

theorem State.whenEnabled_pos {p : BitVec 4} {r : Result} (h : s.PHASE = p) : s.whenEnabled p r = r := if_pos h

theorem State.whenEnabled_neg {p : BitVec 4} {r : Result} (h : s.PHASE ≠ p) :
    s.whenEnabled p r = .refused (.notEnabled s.PHASE) := if_neg h

theorem State.whenResting_next {r : Result} :
    s.whenResting r = .next t ↔ s.isResting = true ∧ r = .next t := by
  unfold State.whenResting
  split <;> simp_all

theorem State.whenResting_pos {r : Result} (h : s.isResting = true) : s.whenResting r = r := if_pos h

theorem State.whenResting_neg {r : Result} (h : s.isResting = false) :
    s.whenResting r = .refused .engineBusy := by
  unfold State.whenResting
  simp [h]

/-- A phase is resting exactly when it is IDLE, DONE or FAULT. -/
theorem State.isResting_iff :
    s.isResting = true ↔ s.PHASE = Phase.idle ∨ s.PHASE = Phase.done ∨ s.PHASE = Phase.fault := by
  simp [State.isResting, isRestingCode, or_assoc]

/-! ## The meanings -/

theorem execStart_next : execStart s = .next t ↔ s.isResting = true ∧ t = s.startCommand := by
  rw [execStart, State.whenResting_next, next_eq_next_iff]

/-- CHECK answers a next state in two ways: it raises InvalidArgument, or it lets the operand through. -/
theorem execCheck_next :
    execCheck s = .next t ↔ s.PHASE = Phase.check ∧
      ((argIsByteSeq s.ARG = false ∧ t = s.raiseInvalidArgument) ∨
       (argIsByteSeq s.ARG = true ∧ s.len ≤ Config.maxLen ∧ t = s.setPHASE Phase.pad)) := by
  unfold execCheck
  rw [State.whenEnabled_next]
  refine and_congr_right fun _ => ?_
  split
  · rename_i h; simp [h, eq_comm]
  · rename_i h
    have h : argIsByteSeq s.ARG = true := by simpa using h
    split
    · rename_i h2; simp [h, Nat.not_le.mpr h2]
    · rename_i h2; simp [h, Nat.not_lt.mp h2, eq_comm]

theorem execPad_next :
    execPad s = .next t ↔ s.PHASE = Phase.pad ∧ ∃ msg, s.ARG = .byteSeq msg ∧ msg.length ≤ Config.maxLen ∧
      t = ((s.setPM (Memory.ofBytes (paddedMessage msg))).setN
        (BitVec.ofNat 56 ((paddedMessage msg).length / 64))).setPHASE Phase.initH := by
  unfold execPad
  rw [State.whenEnabled_next]
  refine and_congr_right fun _ => ?_
  cases hA : s.ARG with
  | notByteSeq => simp
  | byteSeq msg =>
    by_cases h : Config.maxLen < msg.length
    · simp [h, Nat.not_le.mpr h]
    · simp [h, Nat.not_lt.mp h, eq_comm]

theorem execInitH_next :
    execInitH s = .next t ↔ s.PHASE = Phase.initH ∧
      t = ((s.setH Config.IV).setJ 0#56).setPHASE Phase.loadblk := by
  rw [execInitH, State.whenEnabled_next, next_eq_next_iff]

theorem execLoadblk_next :
    execLoadblk s = .next t ↔ s.PHASE = Phase.loadblk ∧ s.PM.firstMissing (blockIndex s.j.toNat 0) 64 = none ∧
      t = ((s.setBLK (blockOf s.PM s.j.toNat)).setT 0#7).setPHASE Phase.schedLd := by
  unfold execLoadblk
  rw [State.whenEnabled_next]
  refine and_congr_right fun _ => ?_
  cases h : s.PM.firstMissing (blockIndex s.j.toNat 0) 64 <;> simp [eq_comm]

theorem execSchedLd_next :
    execSchedLd s = .next t ↔ s.PHASE = Phase.schedLd ∧ ∃ h : s.t.toNat < 16,
      t = ((s.setW (s.W.set s.t.toNat (loadedWord s.BLK s.t.toNat h))).setPHASE
        (phaseAfterLoad s.t)).setT (s.t + 1#7) := by
  unfold execSchedLd
  rw [State.whenEnabled_next]
  refine and_congr_right fun _ => ?_
  split
  · rename_i h; simp [h, eq_comm]
  · rename_i h; simp [h]

theorem execSchedEx_next :
    execSchedEx s = .next t ↔ s.PHASE = Phase.schedEx ∧ ∃ h : 16 ≤ s.t.toNat ∧ s.t.toNat < 64,
      t = ((s.setW (s.W.set s.t.toNat (expandedWord s.W s.t.toNat h))).setPHASE
        (phaseAfterExpand s.t)).setT (s.t + 1#7) := by
  unfold execSchedEx
  rw [State.whenEnabled_next]
  refine and_congr_right fun _ => ?_
  split
  · rename_i h; simp [h, eq_comm]
  · rename_i h; simp [h]

theorem execCinit_next :
    execCinit s = .next t ↔ s.PHASE = Phase.cinit ∧
      t = ((s.setVars (Vars.ofDigest s.H)).setT 0#7).setPHASE Phase.round := by
  rw [execCinit, State.whenEnabled_next, next_eq_next_iff]

theorem execRound_next :
    execRound s = .next t ↔ s.PHASE = Phase.round ∧ ∃ _h : s.t.toNat < 64,
      t = ((s.setVars (roundVars s.vars Config.K[s.t.toNat] s.W[s.t.toNat])).setPHASE
        (phaseAfterRound s.t)).setT (s.t + 1#7) := by
  unfold execRound
  rw [State.whenEnabled_next]
  refine and_congr_right fun _ => ?_
  split
  · rename_i h; simp [h, eq_comm]
  · rename_i h; simp [h]

theorem execFold_next :
    execFold s = .next t ↔ s.PHASE = Phase.fold ∧
      t = ((s.setH (foldedDigest s.H s.vars)).setPHASE (phaseAfterFold s.j s.N)).setJ
        (blockAfterFold s.j s.N) := by
  rw [execFold, State.whenEnabled_next, next_eq_next_iff]

theorem execFmt_next :
    execFmt s = .next t ↔ s.PHASE = Phase.fmt ∧ t = (s.setHEX (digestString s.H)).setPHASE Phase.done := by
  rw [execFmt, State.whenEnabled_next, next_eq_next_iff]

theorem execHash_next {arg : Arg} :
    execHash arg s = .next t ↔ s.isResting = true ∧
      runOperations (operationCount arg) (s.setARG arg).startCommand = .next t := by
  simp [execHash, State.whenResting_next]

/-! ## The only operations that can fault -/

theorem execLoadblk_fault {f : Fault} :
    execLoadblk s = .fault f ↔ s.PHASE = Phase.loadblk ∧
      ∃ i, s.PM.firstMissing (blockIndex s.j.toNat 0) 64 = some i ∧ f = .noValue i := by
  unfold execLoadblk
  rw [State.whenEnabled_fault]
  refine and_congr_right fun _ => ?_
  cases h : s.PM.firstMissing (blockIndex s.j.toNat 0) 64 <;> simp [eq_comm]

theorem execSchedLd_fault {f : Fault} :
    execSchedLd s = .fault f ↔ s.PHASE = Phase.schedLd ∧ 16 ≤ s.t.toNat ∧ f = .indexOutOfRange s.t.toNat := by
  unfold execSchedLd
  rw [State.whenEnabled_fault]
  refine and_congr_right fun _ => ?_
  split
  · rename_i h; simp [Nat.not_le.mpr h]
  · rename_i h; simp [Nat.not_lt.mp h, eq_comm]

theorem execSchedEx_fault {f : Fault} :
    execSchedEx s = .fault f ↔ s.PHASE = Phase.schedEx ∧ ¬ (16 ≤ s.t.toNat ∧ s.t.toNat < 64) ∧
      f = .indexOutOfRange s.t.toNat := by
  unfold execSchedEx
  rw [State.whenEnabled_fault]
  refine and_congr_right fun _ => ?_
  split
  · rename_i h; simp [h]
  · rename_i h; simp only [h, not_false_eq_true, true_and, Host.Outcome.fault.injEq]; exact eq_comm

theorem execRound_fault {f : Fault} :
    execRound s = .fault f ↔ s.PHASE = Phase.round ∧ 64 ≤ s.t.toNat ∧ f = .indexOutOfRange s.t.toNat := by
  unfold execRound
  rw [State.whenEnabled_fault]
  refine and_congr_right fun _ => ?_
  split
  · rename_i h; simp [Nat.not_le.mpr h]
  · rename_i h; simp [Nat.not_lt.mp h, eq_comm]

end Sys2Proof.Machine
end

