-- ==== Sys2Proof/Laws/Sequencer.lean ====
section
/-! SUPPORT. The step by cases, runs of operations, and that a machine with no host move to come runs the engine's own
operations. -/

namespace Sys2Proof.Machine

/-- The codes that name an operation are those of the ten engine operations. -/
theorem decodeCode_ne_start (c : BitVec 4) : decodeCode c ≠ .ok .start := by
  revert c; decide

theorem decodeCode_ne_hash (c : BitVec 4) (arg : Arg) : decodeCode c ≠ .ok (.hash arg) := by
  intro h
  have hn : ∀ c, (match decodeCode c with | .ok (.hash _) => false | _ => true) = true := by decide
  simpa [h] using hn c

theorem decodeCode_ne_bytes (c : BitVec 4) :
    decodeCode c ≠ .error .notACode ∧ decodeCode c ≠ .error .noByte := by
  revert c; decide

/-- HASH's own sequencing is the engine's step. -/
theorem enabledOperation_eq_engineStep (s : State) : enabledOperation s = engineStep s := by
  unfold enabledOperation engineStep
  cases h : decodeCode s.PHASE with
  | error e => cases e <;> rfl
  | ok i =>
    cases i with
    | start => exact absurd h (decodeCode_ne_start _)
    | hash arg => exact absurd h (decodeCode_ne_hash _ arg)
    | _ => rfl

/-! ## The enabled operation, phase by phase -/

theorem enabledOperation_of_check {s : State} (h : s.PHASE = Phase.check) : enabledOperation s = execCheck s := by
  simp only [enabledOperation, h, show decodeCode Phase.check = .ok .check from rfl]

theorem enabledOperation_of_pad {s : State} (h : s.PHASE = Phase.pad) : enabledOperation s = execPad s := by
  simp only [enabledOperation, h, show decodeCode Phase.pad = .ok .pad from rfl]

theorem enabledOperation_of_initH {s : State} (h : s.PHASE = Phase.initH) : enabledOperation s = execInitH s := by
  simp only [enabledOperation, h, show decodeCode Phase.initH = .ok .initH from rfl]

theorem enabledOperation_of_loadblk {s : State} (h : s.PHASE = Phase.loadblk) : enabledOperation s = execLoadblk s := by
  simp only [enabledOperation, h, show decodeCode Phase.loadblk = .ok .loadblk from rfl]

theorem enabledOperation_of_schedLd {s : State} (h : s.PHASE = Phase.schedLd) : enabledOperation s = execSchedLd s := by
  simp only [enabledOperation, h, show decodeCode Phase.schedLd = .ok .schedLd from rfl]

theorem enabledOperation_of_schedEx {s : State} (h : s.PHASE = Phase.schedEx) : enabledOperation s = execSchedEx s := by
  simp only [enabledOperation, h, show decodeCode Phase.schedEx = .ok .schedEx from rfl]

theorem enabledOperation_of_cinit {s : State} (h : s.PHASE = Phase.cinit) : enabledOperation s = execCinit s := by
  simp only [enabledOperation, h, show decodeCode Phase.cinit = .ok .cinit from rfl]

theorem enabledOperation_of_round {s : State} (h : s.PHASE = Phase.round) : enabledOperation s = execRound s := by
  simp only [enabledOperation, h, show decodeCode Phase.round = .ok .round from rfl]

theorem enabledOperation_of_fold {s : State} (h : s.PHASE = Phase.fold) : enabledOperation s = execFold s := by
  simp only [enabledOperation, h, show decodeCode Phase.fold = .ok .fold from rfl]

theorem enabledOperation_of_fmt {s : State} (h : s.PHASE = Phase.fmt) : enabledOperation s = execFmt s := by
  simp only [enabledOperation, h, show decodeCode Phase.fmt = .ok .fmt from rfl]

/-- The thirteen phases: a code that is not reserved is a resting one or one of the ten operations'. -/
theorem phase_cases (c : BitVec 4) (h : c.toNat ≤ 12) :
    isRestingCode c = true ∨ c = Phase.check ∨ c = Phase.pad ∨ c = Phase.initH ∨ c = Phase.loadblk ∨
      c = Phase.schedLd ∨ c = Phase.schedEx ∨ c = Phase.cinit ∨ c = Phase.round ∨ c = Phase.fold ∨ c = Phase.fmt := by
  revert c; decide

/-! ## Runs -/

@[simp] theorem runOperations_zero (s : State) : runOperations 0 s = .next s := rfl

/-- A run of one more operation, when the first gives a next state. -/
theorem runOperations_succ {s s' : State} (n : Nat) (h : enabledOperation s = .next s') :
    runOperations (n + 1) s = runOperations n s' := by
  simp [runOperations, h]

/-- Runs compose. -/
theorem runOperations_add {s s' : State} {m : Nat} (n : Nat) (h : runOperations m s = .next s') :
    runOperations (m + n) s = runOperations n s' := by
  induction m generalizing s with
  | zero => simp_all
  | succ m ih =>
    rw [Nat.succ_add]
    unfold runOperations at h
    rw [runOperations]
    cases h1 : enabledOperation s with
    | next u => rw [h1] at h; exact ih h
    | fault r => rw [h1] at h; cases h
    | refused r => rw [h1] at h; cases h

/-- An invariant of the single operation is an invariant of a run. -/
theorem runOperations_keeps {P : State → Prop} (hP : ∀ s t, P s → enabledOperation s = .next t → P t) {n : Nat}
    {s t : State} (hs : P s) (h : runOperations n s = .next t) : P t := by
  induction n generalizing s with
  | zero => simp_all
  | succ n ih =>
    unfold runOperations at h
    cases h1 : enabledOperation s with
    | next u => rw [h1] at h; exact ih (hP s u hs h1) h
    | fault r => rw [h1] at h; cases h
    | refused r => rw [h1] at h; cases h

/-- The engine's step by cases: a resting phase waits, or the operation its phase names has its meaning. -/
theorem engineStep_next {s t : State} (h : engineStep s = .next t) :
    (s.isResting = true ∧ t = s) ∨ ∃ i, decodeCode s.PHASE = .ok i ∧ exec i s = .next t := by
  unfold engineStep at h
  split at h
  · rename_i i hi; exact .inr ⟨i, hi, h⟩
  · rename_i hi
    refine .inl ⟨?_, by simpa [eq_comm] using h⟩
    unfold State.isResting
    have : ∀ c, decodeCode c = .error .restingPhase → isRestingCode c = true := by decide
    exact this _ hi
  · cases h

theorem decodeCode_of_isResting {s : State} (h : s.isResting = true) :
    decodeCode s.PHASE = .error .restingPhase := by
  have : ∀ c, isRestingCode c = true → decodeCode c = .error .restingPhase := by decide
  exact this _ h

/-- In a resting phase the engine's own step changes nothing. -/
theorem engineStep_of_isResting {s : State} (h : s.isResting = true) : engineStep s = .next s := by
  simp [engineStep, decodeCode_of_isResting h]

theorem enabledOperation_of_isResting {s : State} (h : s.isResting = true) : enabledOperation s = .next s := by
  rw [enabledOperation_eq_engineStep, engineStep_of_isResting h]

/-- With no host move to come a step is the engine's step, in every phase. -/
theorem step_of_host_nil {s : State} (h : s.host = []) : step s = engineStep s := by
  unfold step stepOnce
  rw [h]
  by_cases hr : s.isResting = true
  · simp [hr, hostStep, h, engineStep_of_isResting hr]
  · simp [hr]

/-- No engine operation changes the host's moves or the operand. -/
theorem enabledOperation_host_ARG {s t : State} (h : enabledOperation s = .next t) :
    t.host = s.host ∧ t.ARG = s.ARG := by
  rw [enabledOperation_eq_engineStep] at h
  rcases engineStep_next h with ⟨-, rfl⟩ | ⟨i, hi, h⟩
  · exact ⟨rfl, rfl⟩
  · cases i with
    | start => exact absurd hi (decodeCode_ne_start _)
    | hash arg => exact absurd hi (decodeCode_ne_hash _ arg)
    | check =>
      obtain ⟨-, ⟨-, rfl⟩ | ⟨-, -, rfl⟩⟩ := execCheck_next.mp h <;> simp
    | pad => obtain ⟨-, msg, -, -, rfl⟩ := execPad_next.mp h; simp
    | initH => obtain ⟨-, rfl⟩ := execInitH_next.mp h; simp
    | loadblk => obtain ⟨-, -, rfl⟩ := execLoadblk_next.mp h; simp
    | schedLd => obtain ⟨-, -, rfl⟩ := execSchedLd_next.mp h; simp
    | schedEx => obtain ⟨-, -, rfl⟩ := execSchedEx_next.mp h; simp
    | cinit => obtain ⟨-, rfl⟩ := execCinit_next.mp h; simp
    | round => obtain ⟨-, -, rfl⟩ := execRound_next.mp h; simp
    | fold => obtain ⟨-, rfl⟩ := execFold_next.mp h; simp
    | fmt => obtain ⟨-, rfl⟩ := execFmt_next.mp h; simp

/-- With no host move to come, steps are the engine's operations. -/
theorem core_run_eq_runOperations (n : Nat) {s : State} (h : s.host = []) :
    Host.Core.run
      { State := State, Fault := Fault, Refusal := Refusal, step := step, reset := State.reset } n s =
      runOperations n s := by
  induction n generalizing s with
  | zero => rfl
  | succ n ih =>
    unfold runOperations
    simp only [Host.Core.run, step_of_host_nil h, ← enabledOperation_eq_engineStep]
    cases h1 : enabledOperation s with
    | next u => exact ih ((enabledOperation_host_ARG h1).1.trans h)
    | fault r => rfl
    | refused r => rfl

/-- Every step is one of these: reset; the engine's own step, with or without the move `wait` taken; an operand
presented; START; HASH. -/
theorem step_next {s t : State} (h : step s = .next t) :
    (∃ rest, s.host = .reset :: rest ∧ t = State.reset.setHost rest) ∨
    (∃ rest, engineStep (s.setHost rest) = .next t) ∨
    (s.isResting = true ∧ ∃ arg rest, s.host = .present arg :: rest ∧ t = (s.setHost rest).setARG arg) ∨
    (s.isResting = true ∧ ∃ rest, s.host = .start :: rest ∧ t = (s.setHost rest).startCommand) ∨
    (s.isResting = true ∧ ∃ arg rest, s.host = .hash arg :: rest ∧ execHash arg (s.setHost rest) = .next t) := by
  have hself : s.setHost s.host = s := rfl
  unfold step stepOnce at h
  split at h
  · rename_i rest hh
    exact .inl ⟨rest, hh, by simpa [State.applyReset, eq_comm] using h⟩
  · rename_i rest hh
    exact .inr (.inl ⟨rest, h⟩)
  · rename_i hnr hnw
    split at h
    · rename_i hr
      unfold hostStep at h
      split at h
      · rename_i arg rest hh
        exact .inr (.inr (.inl ⟨hr, arg, rest, hh, by simpa [eq_comm] using h⟩))
      · rename_i rest hh
        exact .inr (.inr (.inr (.inl ⟨hr, rest, hh, (execStart_next.mp h).2⟩)))
      · rename_i arg rest hh
        exact .inr (.inr (.inr (.inr ⟨hr, arg, rest, hh, h⟩)))
      · rename_i rest hh; exact absurd hh (hnw rest)
      · rename_i rest hh; exact absurd hh (hnr rest)
      · refine .inr (.inl ⟨s.host, ?_⟩)
        rw [hself, engineStep_of_isResting hr]
        exact h
    · exact .inr (.inl ⟨s.host, by rw [hself]; exact h⟩)

end Sys2Proof.Machine
end

