-- ==== Sys2Proof/Laws/Loops.lean ====
section
/-! SUPPORT. The three counted loops of a block (46_hash_operation R253): what `k` passes of each leave, by induction on
`k`, the schedule of the functional form entry by entry, and a whole block. -/

namespace Sys2Proof.Machine

/-- The state inside a scheduler loop: only W, PHASE and `t` differ from the state the loop began in. -/
def State.scheduling (s : State) (w : Vector Word 64) (p : BitVec 4) (k : Nat) : State :=
  ((s.setW w).setPHASE p).setT (BitVec.ofNat 7 k)

/-- The state inside the round loop: only the working variables, PHASE and `t` differ. -/
def State.mixing (s : State) (v : Vars) (p : BitVec 4) (k : Nat) : State :=
  ((s.setVars v).setPHASE p).setT (BitVec.ofNat 7 k)

theorem ofNat7_toNat {k : Nat} (h : k < 128) : (BitVec.ofNat 7 k).toNat = k := by
  rw [BitVec.toNat_ofNat]
  omega

theorem ofNat7_succ (k : Nat) : BitVec.ofNat 7 k + 1#7 = BitVec.ofNat 7 (k + 1) := by
  rw [← BitVec.toNat_inj, BitVec.toNat_add, BitVec.toNat_ofNat, BitVec.toNat_ofNat, BitVec.toNat_ofNat]
  omega

/-- One pass of the load loop at index `k` (43_scheduler R171). -/
theorem enabledOperation_load {s : State} {w : Vector Word 64} {k : Nat} (hk : k < 16) :
    enabledOperation (s.scheduling w Phase.schedLd k) =
      .next (s.scheduling (w.set k (loadedWord s.BLK k hk))
        (if k = 15 then Phase.schedEx else Phase.schedLd) (k + 1)) := by
  have ht : (s.scheduling w Phase.schedLd k).t.toNat = k := ofNat7_toNat (by omega)
  rw [enabledOperation_of_schedLd (s := s.scheduling w Phase.schedLd k) rfl, execSchedLd_next]
  refine ⟨rfl, by omega, ?_⟩
  have hph : phaseAfterLoad (s.scheduling w Phase.schedLd k).t =
      if k = 15 then Phase.schedEx else Phase.schedLd := by
    simp only [phaseAfterLoad, index_eq_iff _ 15 (by omega), ht]
  rw [hph]
  simp only [State.scheduling, State.setT_t, State.setT_W, State.setPHASE_W, State.setW_W,
    State.setT_BLK, State.setPHASE_BLK, State.setW_BLK, ofNat7_succ, ofNat7_toNat (show k < 128 by omega)]
  rfl

/-- `k` passes of the load loop from `t = 0` (43_scheduler R171, R172). -/
theorem runOperations_loads (s : State) (w₀ : Vector Word 64) {k : Nat} (hk : k ≤ 16) :
    ∃ w : Vector Word 64,
      runOperations k (s.scheduling w₀ Phase.schedLd 0) =
        .next (s.scheduling w (if k = 16 then Phase.schedEx else Phase.schedLd) k) ∧
      ∀ (i : Nat) (h : i < 16), i < k → w[i] = loadedWord s.BLK i h := by
  induction k with
  | zero => exact ⟨w₀, rfl, by intros; omega⟩
  | succ k ih =>
    obtain ⟨w, hrun, hw⟩ := ih (by omega)
    rw [if_neg (by omega)] at hrun
    refine ⟨w.set k (loadedWord s.BLK k (by omega)), ?_, fun i h hi => ?_⟩
    · rw [runOperations_add 1 hrun, runOperations_succ 0 (enabledOperation_load (by omega))]
      simp only [runOperations_zero, show k + 1 = 16 ↔ k = 15 by omega]
    · by_cases he : k = i
      · subst he; simp
      · rw [Vector.getElem_set_ne _ _ he]; exact hw i h (by omega)

/-- One pass of the expansion loop at index `k` (43_scheduler R173). -/
theorem enabledOperation_expand {s : State} {w : Vector Word 64} {k : Nat} (hk : 16 ≤ k ∧ k < 64) :
    enabledOperation (s.scheduling w Phase.schedEx k) =
      .next (s.scheduling (w.set k (expandedWord w k hk))
        (if k = 63 then Phase.cinit else Phase.schedEx) (k + 1)) := by
  have ht : (s.scheduling w Phase.schedEx k).t.toNat = k := ofNat7_toNat (by omega)
  rw [enabledOperation_of_schedEx (s := s.scheduling w Phase.schedEx k) rfl, execSchedEx_next]
  refine ⟨rfl, by omega, ?_⟩
  have hph : phaseAfterExpand (s.scheduling w Phase.schedEx k).t =
      if k = 63 then Phase.cinit else Phase.schedEx := by
    simp only [phaseAfterExpand, index_eq_iff _ 63 (by omega), ht]
  rw [hph]
  simp only [State.scheduling, State.setT_t, State.setT_W, State.setPHASE_W, State.setW_W,
    ofNat7_succ, ofNat7_toNat (show k < 128 by omega)]
  rfl

/-- `k` passes of the expansion loop from `t = 16`: the first sixteen words stay, every further word obeys the
recurrence over the words of the result (43_scheduler R173). -/
theorem runOperations_expands (s : State) (w₀ : Vector Word 64) {k : Nat} (hk : k ≤ 48) :
    ∃ w : Vector Word 64,
      runOperations k (s.scheduling w₀ Phase.schedEx 16) =
        .next (s.scheduling w (if k = 48 then Phase.cinit else Phase.schedEx) (16 + k)) ∧
      (∀ (i : Nat) (_ : i < 16), w[i] = w₀[i]) ∧
      ∀ (i : Nat) (h : 16 ≤ i ∧ i < 64), i < 16 + k → w[i] = expandedWord w i h := by
  induction k with
  | zero => exact ⟨w₀, rfl, fun _ _ => rfl, by intros; omega⟩
  | succ k ih =>
    obtain ⟨w, hrun, hlow, hw⟩ := ih (by omega)
    rw [if_neg (by omega)] at hrun
    have hkk : 16 ≤ 16 + k ∧ 16 + k < 64 := by omega
    refine ⟨w.set (16 + k) (expandedWord w (16 + k) hkk), ?_, fun i h => ?_, fun i h hi => ?_⟩
    · rw [runOperations_add 1 hrun, runOperations_succ 0 (enabledOperation_expand hkk)]
      simp only [runOperations_zero, show 16 + k = 63 ↔ k + 1 = 48 by omega, Nat.add_assoc]
    · rw [Vector.getElem_set_ne _ _ (by omega)]; exact hlow i h
    · have hother : ∀ (x : Word) (m : Nat) (_ : m < i) (_ : i ≤ 16 + k),
          (w.set (16 + k) x)[m]'(by omega) = w[m]'(by omega) := fun x m _ _ =>
        Vector.getElem_set_ne _ _ (by omega)
      have hrec : ∀ x : Word, expandedWord (w.set (16 + k) x) i h = expandedWord w i h := fun x => by
        simp only [expandedWord]
        rw [hother x (i - 2) (by omega) (by omega), hother x (i - 7) (by omega) (by omega),
          hother x (i - 15) (by omega) (by omega), hother x (i - 16) (by omega) (by omega)]
      rw [hrec]
      by_cases he : 16 + k = i
      · subst he; simp
      · rw [Vector.getElem_set_ne _ _ he]; exact hw i h (by omega)

/-- One pass of the round loop at index `k` (44_compressor R195). -/
theorem enabledOperation_round {s : State} {v : Vars} {k : Nat} (hk : k < 64) :
    enabledOperation (s.mixing v Phase.round k) =
      .next (s.mixing (roundVars v Config.K[k] s.W[k])
        (if k = 63 then Phase.fold else Phase.round) (k + 1)) := by
  have ht : (s.mixing v Phase.round k).t.toNat = k := ofNat7_toNat (by omega)
  rw [enabledOperation_of_round (s := s.mixing v Phase.round k) rfl, execRound_next]
  refine ⟨rfl, by omega, ?_⟩
  have hph : phaseAfterRound (s.mixing v Phase.round k).t =
      if k = 63 then Phase.fold else Phase.round := by
    simp only [phaseAfterRound, index_eq_iff _ 63 (by omega), ht]
  rw [hph]
  simp only [State.mixing, State.setT_t, State.setT_W, State.setPHASE_W, State.setVars_W, State.setT_vars,
    State.setPHASE_vars, State.setVars_vars, ofNat7_succ, ofNat7_toNat (show k < 128 by omega)]
  rfl

/-- The working variables after `k` rounds, from the words of a schedule (44_compressor R195). -/
def varsAfter (v : Vars) (w : Vector Word 64) : Nat → Vars
  | 0 => v
  | k + 1 => if h : k < 64 then roundVars (varsAfter v w k) Config.K[k] w[k] else varsAfter v w k

/-- `k` passes of the round loop from `t = 0` (44_compressor R195). -/
theorem runOperations_rounds (s : State) (v₀ : Vars) {k : Nat} (hk : k ≤ 64) :
    runOperations k (s.mixing v₀ Phase.round 0) =
      .next (s.mixing (varsAfter v₀ s.W k) (if k = 64 then Phase.fold else Phase.round) k) := by
  induction k with
  | zero => rfl
  | succ k ih =>
    have hrun := ih (by omega)
    rw [if_neg (by omega)] at hrun
    rw [runOperations_add 1 hrun, runOperations_succ 0 (enabledOperation_round (by omega))]
    simp only [runOperations_zero, show k + 1 = 64 ↔ k = 63 by omega, varsAfter,
      dif_pos (show k < 64 by omega)]

/-- The rounds of the functional form are the machine's, when the words are those of W (46_hash_operation R249). -/
theorem functionalRounds_toList (v : Vars) (w : Vector Word 64) :
    functionalRounds v w.toList = varsAfter v w 64 := by
  have hzip : ∀ k, k ≤ 64 →
      ((Config.K.toList.zip w.toList).take k).foldl (fun v kw => roundVars v kw.1 kw.2) v = varsAfter v w k := by
    intro k
    induction k with
    | zero => intro _; rfl
    | succ k ih =>
      intro hk
      have hlen : k < (Config.K.toList.zip w.toList).length := by simp; omega
      rw [List.take_succ_eq_append_getElem hlen, List.foldl_append, ih (by omega), varsAfter,
        dif_pos (show k < 64 by omega)]
      simp
  have := hzip 64 (Nat.le_refl _)
  rwa [List.take_of_length_le (by simp)] at this

/-! ## The schedule of the functional form -/

theorem extendWords_length (n : Nat) (ws : List Word) : (extendWords n ws).length = ws.length + n := by
  induction n generalizing ws with
  | zero => rfl
  | succ n ih => rw [extendWords, ih, List.length_append, List.length_singleton]; omega

theorem functionalSchedule_length (b : List Byte) : (functionalSchedule b).length = 64 := by
  rw [functionalSchedule, extendWords_length, firstWords, List.length_map, List.length_range]

/-- Extending keeps the words there are, and every word added obeys the recurrence. -/
theorem extendWords_getD (n : Nat) (ws : List Word) (h16 : 16 ≤ ws.length) :
    (∀ i < ws.length, (extendWords n ws).getD i 0#32 = ws.getD i 0#32) ∧
    ∀ i, ws.length ≤ i → i < ws.length + n →
      (extendWords n ws).getD i 0#32 =
        SSIG1 ((extendWords n ws).getD (i - 2) 0#32) + (extendWords n ws).getD (i - 7) 0#32 +
          SSIG0 ((extendWords n ws).getD (i - 15) 0#32) + (extendWords n ws).getD (i - 16) 0#32 := by
  induction n generalizing ws with
  | zero => exact ⟨fun _ _ => rfl, by intros; omega⟩
  | succ n ih =>
    rw [extendWords]
    generalize hx : SSIG1 (ws.getD (ws.length - 2) 0#32) + ws.getD (ws.length - 7) 0#32 +
      SSIG0 (ws.getD (ws.length - 15) 0#32) + ws.getD (ws.length - 16) 0#32 = x
    have hlen : (ws ++ [x]).length = ws.length + 1 := by simp
    obtain ⟨hkeep, hrec⟩ := ih (ws ++ [x]) (by omega)
    have hold : ∀ i < ws.length, (extendWords n (ws ++ [x])).getD i 0#32 = ws.getD i 0#32 := fun i hi => by
      rw [hkeep i (by omega), List.getD_append _ _ _ _ hi]
    refine ⟨hold, fun i h1 h2 => ?_⟩
    by_cases he : ws.length = i
    · subst he
      rw [hkeep _ (by omega), hold _ (by omega), hold _ (by omega), hold _ (by omega), hold _ (by omega), hx]
      simp
    · exact hrec i (by omega) (by omega)

/-- A vector of 64 words that starts with the words of a block and obeys the recurrence is the functional schedule of
that block (46_hash_operation R249). -/
theorem toList_eq_functionalSchedule {w : Vector Word 64} {b : Vector Byte 64}
    (hlow : ∀ (i : Nat) (h : i < 16), w[i] = loadedWord b i h)
    (hrec : ∀ (i : Nat) (h : 16 ≤ i ∧ i < 64), w[i] = expandedWord w i h) :
    w.toList = functionalSchedule b.toList := by
  have hfirst : (firstWords b.toList).length = 16 := by simp [firstWords]
  obtain ⟨hk, hr⟩ := extendWords_getD 48 (firstWords b.toList) (by omega)
  have key : ∀ n i, i < n → (h : i < 64) → w[i] = (functionalSchedule b.toList).getD i 0#32 := by
    intro n
    induction n with
    | zero => intros; omega
    | succ n ih =>
      intro i hi h
      by_cases h16 : i < 16
      · rw [hlow i h16, functionalSchedule, hk i (by omega)]
        have hb : ∀ m, (hm : m < 64) → b.toList.getD m 0#8 = b[m] := fun m hm => by simp [hm]
        simp only [firstWords, loadedWord]
        rw [List.getD_eq_getElem _ _ (by simpa using h16)]
        simp only [List.getElem_map, List.getElem_range]
        rw [hb (4 * i) (by omega), hb (4 * i + 1) (by omega), hb (4 * i + 2) (by omega), hb (4 * i + 3) (by omega)]
      · have hi64 : 16 ≤ i ∧ i < 64 := by omega
        rw [hrec i hi64, functionalSchedule, hr i (by omega) (by omega)]
        simp only [expandedWord, ADD32]
        rw [ih (i - 2) (by omega) (by omega), ih (i - 7) (by omega) (by omega), ih (i - 15) (by omega) (by omega),
          ih (i - 16) (by omega) (by omega)]
        rfl
  apply List.ext_getElem
  · rw [functionalSchedule_length]; simp
  · intro i h1 h2
    have h64 : i < 64 := by simpa using h1
    have := key (i + 1) i (by omega) h64
    rw [List.getD_eq_getElem _ _ h2] at this
    simpa using this

/-! ## A whole block -/

/-- FOLD at the end of the round loop (44_compressor R200). -/
theorem enabledOperation_fold (s : State) (v : Vars) (k : Nat) :
    enabledOperation (s.mixing v Phase.fold k) = .next
      ((((s.mixing v Phase.fold k).setH (foldedDigest s.H v)).setPHASE (phaseAfterFold s.j s.N)).setJ
        (blockAfterFold s.j s.N)) := by
  rw [enabledOperation_of_fold (s := s.mixing v Phase.fold k) rfl, execFold_next]
  exact ⟨rfl, rfl⟩

/-- `compress`, when the words of W are `schedule` of the block (46_hash_operation R249). -/
theorem foldedDigest_eq_functionalCompress (H : Vector Word 8) (w : Vector Word 64) (b : List Byte)
    (h : w.toList = functionalSchedule b) :
    foldedDigest H (varsAfter (Vars.ofDigest H) w 64) = functionalCompress H b := by
  rw [functionalCompress, ← h, functionalRounds_toList]

/-- The 131 operations of a block, when PM holds it (44_compressor R201, 46_hash_operation R251): what they leave, for a
schedule that is `schedule` of the block's bytes and the 64 rounds over it. -/
theorem runOperations_block {s : State} (hp : s.PHASE = Phase.loadblk)
    (hm : s.PM.firstMissing (blockIndex s.j.toNat 0) 64 = none) :
    ∃ w : Vector Word 64, w.toList = functionalSchedule (blockOf s.PM s.j.toNat).toList ∧
      runOperations 131 s = .next
        ((((((s.setBLK (blockOf s.PM s.j.toNat)).setW w).mixing (varsAfter (Vars.ofDigest s.H) w 64) Phase.fold 64).setH
          (functionalCompress s.H (blockOf s.PM s.j.toNat).toList)).setPHASE (phaseAfterFold s.j s.N)).setJ
          (blockAfterFold s.j s.N)) := by
  generalize hb : blockOf s.PM s.j.toNat = b
  have hload : enabledOperation s = .next ((s.setBLK b).scheduling s.W Phase.schedLd 0) := by
    rw [enabledOperation_of_loadblk hp, execLoadblk_next, hb]
    exact ⟨hp, hm, rfl⟩
  obtain ⟨w₁, hrun₁, hw₁⟩ := runOperations_loads (s.setBLK b) s.W (Nat.le_refl 16)
  obtain ⟨w, hrun₂, hlow, hrec⟩ := runOperations_expands (s.setBLK b) w₁ (Nat.le_refl 48)
  have hlist : w.toList = functionalSchedule b.toList :=
    toList_eq_functionalSchedule (fun i h => (hlow i h).trans (hw₁ i h h)) fun i h => hrec i h (by omega)
  have hinit : enabledOperation ((s.setBLK b).scheduling w Phase.cinit 64) =
      .next (((s.setBLK b).setW w).mixing (Vars.ofDigest s.H) Phase.round 0) := by
    rw [enabledOperation_of_cinit (s := (s.setBLK b).scheduling w Phase.cinit 64) rfl, execCinit_next]
    exact ⟨rfl, rfl⟩
  have hrun₃ := runOperations_rounds ((s.setBLK b).setW w) (Vars.ofDigest s.H) (Nat.le_refl 64)
  have hfold : enabledOperation (((s.setBLK b).setW w).mixing (varsAfter (Vars.ofDigest s.H) w 64) Phase.fold 64) =
      .next ((((((s.setBLK b).setW w).mixing (varsAfter (Vars.ofDigest s.H) w 64) Phase.fold 64).setH
        (functionalCompress s.H b.toList)).setPHASE (phaseAfterFold s.j s.N)).setJ (blockAfterFold s.j s.N)) := by
    rw [← foldedDigest_eq_functionalCompress s.H w b.toList hlist]
    exact enabledOperation_fold ((s.setBLK b).setW w) _ 64
  refine ⟨w, hlist, ?_⟩
  have h2 := runOperations_add (1 + (64 + 1)) hrun₂
  have h1 := runOperations_add (48 + (1 + (64 + 1))) hrun₁
  have h3 := runOperations_add 1 hrun₃
  rw [if_pos rfl] at h1 h2 h3
  rw [Nat.add_comm 1 (64 + 1), runOperations_succ _ hinit, h3, State.setW_W] at h2
  have h4 := runOperations_succ 0 hfold
  rw [runOperations_zero] at h4
  have h0 := runOperations_succ (16 + (48 + (1 + (64 + 1)))) hload
  rw [h1, Nat.add_comm 1 (64 + 1), h2, h4] at h0
  exact h0

end Sys2Proof.Machine
end

