-- ==== Sys2Proof/Laws/PaddedMessage.lean ====
section
/-! SUPPORT. What a state that holds its operand's padded message (`State.HoldsPaddedMessage`) gives the operations of the
block loop: the number of blocks, the bytes LOADBLK finds, and what a run over the remaining blocks leaves. -/

namespace Sys2Proof.Machine

/-- The padded message is a whole number of blocks (41_padder R142). -/
theorem paddedMessage_length_blocks (msg : List Byte) :
    (paddedMessage msg).length = 64 * blockCount msg.length := by
  rw [paddedMessage_length, padZeros, blockCount]
  omega

/-- Holding the padded message depends on ARG, PM and N only. -/
theorem State.HoldsPaddedMessage.congr {s t : State} (h : s.HoldsPaddedMessage) (hA : t.ARG = s.ARG)
    (hP : t.PM = s.PM) (hN : t.N = s.N) : t.HoldsPaddedMessage := by
  obtain ⟨msg, h⟩ := h
  exact ⟨msg, by rw [hA, hP, hN]; exact h⟩

/-- `1 ≤ N ≤ 2^55 + 1` (10_state R32). -/
theorem State.HoldsPaddedMessage.blocks {s : State} (h : s.HoldsPaddedMessage) :
    1 ≤ s.N.toNat ∧ s.N.toNat ≤ 2 ^ 55 + 1 := by
  obtain ⟨msg, -, hl, -, hN⟩ := h
  rw [hN]
  exact ⟨by rw [blockCount]; omega, blockCount_le hl⟩

/-- PM holds the indices 0 to 64N - 1 and no other (10_state R31, 20_memory R50). -/
theorem State.HoldsPaddedMessage.indices {s : State} (h : s.HoldsPaddedMessage) :
    s.PM.map Prod.fst = List.range (64 * s.N.toNat) := by
  obtain ⟨msg, -, -, hP, hN⟩ := h
  rw [hP, hN, Memory.map_fst_ofBytes, paddedMessage_length_blocks]

/-- LOADBLK of a block below N finds all its bytes (42_segmenter R161). -/
theorem State.HoldsPaddedMessage.firstMissing_eq_none {s : State} (h : s.HoldsPaddedMessage) {j : Nat}
    (hj : j < s.N.toNat) : s.PM.firstMissing (blockIndex j 0) 64 = none := by
  rw [Memory.firstMissing_eq_none_iff]
  intro i hi
  exact Memory.read_isSome_of_map_fst h.indices (by simp only [blockIndex]; omega)

/-- The bytes LOADBLK copies are the block of the functional form (46_hash_operation R249). -/
theorem blockOf_ofBytes {p : List Byte} {j : Nat} (hj : 64 * j + 64 ≤ p.length) :
    (blockOf (Memory.ofBytes p) j).toList = functionalBlock p j := by
  have hlen : (functionalBlock p j).length = 64 := by
    rw [functionalBlock, List.length_take, List.length_drop]; omega
  apply List.ext_getElem
  · rw [hlen]; simp
  · intro i h1 h2
    have hi : 64 * j + i < p.length := by omega
    simp [blockOf, blockIndex, functionalBlock, hi]

/-- What the 131 operations of a block leave, element by element (44_compressor R201). -/
theorem runOperations_block_effect {s : State} (hp : s.PHASE = Phase.loadblk)
    (hm : s.PM.firstMissing (blockIndex s.j.toNat 0) 64 = none) :
    ∃ t, runOperations 131 s = .next t ∧ t.PHASE = phaseAfterFold s.j s.N ∧ t.j = blockAfterFold s.j s.N ∧
      t.H = functionalCompress s.H (blockOf s.PM s.j.toNat).toList ∧
      t.PM = s.PM ∧ t.N = s.N ∧ t.HEX = s.HEX ∧ t.ERR = s.ERR ∧ t.ARG = s.ARG ∧ t.host = s.host := by
  obtain ⟨w, -, hrun⟩ := runOperations_block hp hm
  exact ⟨_, hrun, by simp [State.mixing]⟩

/-- A run over the blocks that remain, `k` after the one at `j` (44_compressor R201, 46_hash_operation R251): it ends in
FMT with the digest of these blocks folded into H, and leaves PM, N, HEX, ERR, the operand and the host's moves. -/
theorem runOperations_blocks {s : State} {msg : List Byte} (k : Nat) (hp : s.PHASE = Phase.loadblk)
    (hA : s.ARG = .byteSeq msg) (hl : msg.length ≤ Config.maxLen) (hP : s.PM = Memory.ofBytes (paddedMessage msg))
    (hN : s.N.toNat = blockCount msg.length) (hj : s.j.toNat + (k + 1) = s.N.toNat) :
    ∃ t, runOperations (131 * (k + 1)) s = .next t ∧ t.PHASE = Phase.fmt ∧
      t.H = ((List.range' s.j.toNat (k + 1)).map (functionalBlock (paddedMessage msg))).foldl functionalCompress s.H ∧
      t.PM = s.PM ∧ t.N = s.N ∧ t.HEX = s.HEX ∧ t.ERR = s.ERR ∧ t.ARG = s.ARG ∧ t.host = s.host := by
  induction k generalizing s with
  | zero =>
    have hh : s.HoldsPaddedMessage := ⟨msg, hA, hl, hP, hN⟩
    obtain ⟨t, hrun, hph, -, hH, hkeep⟩ := runOperations_block_effect hp (hh.firstMissing_eq_none (by omega))
    rw [phaseAfterFold, if_pos (by omega)] at hph
    rw [hP, blockOf_ofBytes (by rw [paddedMessage_length_blocks]; omega)] at hH
    exact ⟨t, hrun, hph, hH, hkeep⟩
  | succ k ih =>
    have hh : s.HoldsPaddedMessage := ⟨msg, hA, hl, hP, hN⟩
    obtain ⟨u, hrun, hph, hju, hH, hPM, hNN, hHEX, hERR, hARG, hhost⟩ :=
      runOperations_block_effect hp (hh.firstMissing_eq_none (by omega))
    rw [phaseAfterFold, if_neg (by omega)] at hph
    rw [hP, blockOf_ofBytes (by rw [paddedMessage_length_blocks]; omega)] at hH
    have hj1 : u.j.toNat = s.j.toNat + 1 := by
      rw [hju, blockAfterFold, if_pos (by omega), BitVec.toNat_add, BitVec.toNat_ofNat]
      have := s.N.isLt
      omega
    obtain ⟨t, hrun', h1, h2, h3, h4, h5, h6, h7, h8⟩ :=
      ih hph (hARG.trans hA) (hPM.trans hP) (by rw [hNN, hN]) (by rw [hNN, hj1]; omega)
    refine ⟨t, ?_, h1, ?_, h3.trans hPM, h4.trans hNN, h5.trans hHEX, h6.trans hERR, h7.trans hARG, h8.trans hhost⟩
    · rw [show 131 * (k + 1 + 1) = 131 + 131 * (k + 1) by omega, runOperations_add _ hrun, hrun']
    · rw [h2, hj1, hH, List.range'_succ (n := k + 1), List.map_cons, List.foldl_cons]

end Sys2Proof.Machine
end

