-- ==== Sys2Proof/Laws/PerInstr.lean ====
section
/-! SUPPORT. Statements made of every instruction as syntax, one lemma per constructor. -/

namespace Sys2Proof.Laws

/-- The code of an operation decodes to it, and no other code does; an instruction without a code is decoded from
none. -/
def EncodeDecode.Statement (i : Instr) : Prop := ∀ c : BitVec 4, decodeCode c = .ok i ↔ encode i = some c

theorem EncodeDecode.start : EncodeDecode.Statement .start := by
  unfold EncodeDecode.Statement; decide
theorem EncodeDecode.check : EncodeDecode.Statement .check := by
  unfold EncodeDecode.Statement; decide
theorem EncodeDecode.pad : EncodeDecode.Statement .pad := by
  unfold EncodeDecode.Statement; decide
theorem EncodeDecode.initH : EncodeDecode.Statement .initH := by
  unfold EncodeDecode.Statement; decide
theorem EncodeDecode.loadblk : EncodeDecode.Statement .loadblk := by
  unfold EncodeDecode.Statement; decide
theorem EncodeDecode.schedLd : EncodeDecode.Statement .schedLd := by
  unfold EncodeDecode.Statement; decide
theorem EncodeDecode.schedEx : EncodeDecode.Statement .schedEx := by
  unfold EncodeDecode.Statement; decide
theorem EncodeDecode.cinit : EncodeDecode.Statement .cinit := by
  unfold EncodeDecode.Statement; decide
theorem EncodeDecode.round : EncodeDecode.Statement .round := by
  unfold EncodeDecode.Statement; decide
theorem EncodeDecode.fold : EncodeDecode.Statement .fold := by
  unfold EncodeDecode.Statement; decide
theorem EncodeDecode.fmt : EncodeDecode.Statement .fmt := by
  unfold EncodeDecode.Statement; decide

/-- HASH has no code, and no code decodes to it. -/
theorem EncodeDecode.hash (arg : Arg) : EncodeDecode.Statement (.hash arg) := by
  intro c
  have hn : ∀ c, (match decodeCode c with | .ok (.hash _) => false | _ => true) = true := by decide
  constructor
  · intro h
    have := hn c
    simp [h] at this
  · intro h
    simp [encode] at h

end Sys2Proof.Laws
end

