-- ==== Sys2Proof/Tests/Slice0.lean ====
section
/-! SUPPORT. Tests of one step each, with expected results taken from the spec's worked examples and vectors, and, for
every statement that has hypotheses, a witness that meets them together. -/

namespace Sys2Proof.Tests

open Sys2Proof.Machine

/-- The reset state with a phase and an index set. -/
def stateAt (p : BitVec 4) (t : BitVec 7 := 0#7) : State := { State.reset with PHASE := p, t := t }

/-- The next state, where there is one. -/
def next? : Result → Option State
  | .next s => some s
  | .fault _ => none
  | .refused _ => none

/-- The fault, where there is one. -/
def fault? : Result → Option Fault
  | .next _ => none
  | .fault r => some r
  | .refused _ => none

/-- The refusal, where there is one. -/
def refusal? : Result → Option Refusal
  | .next _ => none
  | .fault _ => none
  | .refused r => some r

/-- The message "abc" (95 S2, 93 G4). -/
def abc : List Byte := [0x61#8, 0x62#8, 0x63#8]

theorem exists_message (n : Nat) : ∃ msg : List Byte, msg.length = n :=
  ⟨List.replicate n 0#8, List.length_replicate⟩

/-! ## Well-formedness: the one check, on a term it refuses and on one at its limit -/

theorem test_wellFormed_refuses_long_hash :
    ∀ msg : List Byte, msg.length = 2 ^ 61 → (Instr.hash (.byteSeq msg)).wellFormed = false := by
  intro msg h
  simp [Instr.wellFormed, Arg.withinLimit, Config.maxLen, h]

theorem test_wellFormed_accepts_longest_hash :
    ∀ msg : List Byte, msg.length = 2 ^ 61 - 1 → (Instr.hash (.byteSeq msg)).wellFormed = true := by
  intro msg h
  simp [Instr.wellFormed, Arg.withinLimit, Config.maxLen, h]

theorem test_wellFormed_hash_of_abc : (Instr.hash (.byteSeq abc)).wellFormed = true := by decide

/-! ## Decoding: the codes of 30_encoding R96 written out bit by bit -/

theorem test_decode_check : decodeTableWord 8 0b00000001 = some .check := by decide
theorem test_decode_pad : decodeTableWord 8 0b00000010 = some .pad := by decide
theorem test_decode_initH : decodeTableWord 8 0b00000011 = some .initH := by decide
theorem test_decode_loadblk : decodeTableWord 8 0b00000100 = some .loadblk := by decide
theorem test_decode_schedLd : decodeTableWord 8 0b00000101 = some .schedLd := by decide
theorem test_decode_schedEx : decodeTableWord 8 0b00000110 = some .schedEx := by decide
theorem test_decode_cinit : decodeTableWord 8 0b00000111 = some .cinit := by decide
theorem test_decode_round : decodeTableWord 8 0b00001000 = some .round := by decide
theorem test_decode_fold : decodeTableWord 8 0b00001001 = some .fold := by decide
theorem test_decode_fmt : decodeTableWord 8 0b00001010 = some .fmt := by decide

/-- The resting codes name no operation, nor do the reserved ones, nor a byte that is no code (30_encoding R96, R97). -/
theorem test_decode_none :
    decodeTableWord 8 0b0000 = none ∧ decodeTableWord 8 0b1011 = none ∧ decodeTableWord 8 0b1100 = none ∧
    decodeTableWord 8 0b1101 = none ∧ decodeTableWord 8 0b1111 = none ∧ decodeTableWord 8 0b00010001 = none := by
  decide

/-- No two rows of the table overlap: no code matches both. -/
theorem test_opTable_no_overlap :
    opTable.Pairwise fun r r' => r.pattern &&& (r.mask &&& r'.mask) ≠ r'.pattern &&& (r.mask &&& r'.mask) := by
  decide

/-! ## Primitives (40_primitives R110 to R126, 95 section 3.1) -/

theorem test_rotr_shr :
    ROTR 0x12345678#32 4 = 0x81234567#32 ∧ ROTR 1#32 1 = 0x80000000#32 ∧ SHR 0x80000000#32 3 = 0x10000000#32 := by
  decide

theorem test_ch_maj :
    Ch 0x510e527f#32 0x9b05688c#32 0x1f83d9ab#32 = 0x1f85c98c#32 ∧
    Maj 0x6a09e667#32 0xbb67ae85#32 0x3c6ef372#32 = 0x3a6fe667#32 := by decide

theorem test_sigmas :
    BSIG0 0x6a09e667#32 = 0xce20b47e#32 ∧ BSIG1 0x510e527f#32 = 0x3587272b#32 ∧
    SSIG0 0x12345678#32 = 0xe7fce6ee#32 ∧ SSIG1 0x12345678#32 = 0xa1f78649#32 := by decide

theorem test_len8_longest : LEN8 0x1fffffffffffffff#61 = 0xfffffffffffffff8#64 := by decide

/-- The padding table of 95 section 2.1: `k` for lengths 0, 3, 55, 56, 63, 64, 120 and 2^61 - 1. -/
theorem test_padZeros :
    [0, 3, 55, 56, 63, 64, 120, 2 ^ 61 - 1].map padZeros = [55, 52, 0, 63, 56, 55, 63, 56] := by decide

/-! ## One operation at a time -/

/-- 95 P5: START in FAULT clears ERR and enters CHECK. -/
theorem test_start_leaves_fault :
    (next? (exec .start { stateAt Phase.fault with ERR := 1#1 })).map (fun s => (s.PHASE, s.ERR)) =
      some (0x1#4, 0#1) := by decide

/-- 93 U2: START while busy has no transition. -/
theorem test_start_while_busy : refusal? (exec .start (stateAt Phase.round)) = some .engineBusy := by decide

/-- 46 R237: the worked example. -/
theorem test_check_abc :
    (next? (exec .check { stateAt Phase.check with ARG := .byteSeq abc })).map (fun s => (s.PHASE, s.ERR)) =
      some (0x2#4, 0#1) := by decide

/-- 95 P4: the rejected operand. -/
theorem test_check_rejects :
    (next? (exec .check { stateAt Phase.check with ARG := .notByteSeq })).map (fun s => (s.PHASE, s.ERR)) =
      some (0xC#4, 1#1) := by decide

/-- 41 R141: the worked example, "abc". -/
theorem test_pad_abc :
    (next? (exec .pad { stateAt Phase.pad with ARG := .byteSeq abc })).map (fun s => (s.N, s.PHASE, s.PM.map Prod.snd)) =
      some (1#56, 0x3#4, [0x61#8, 0x62#8, 0x63#8, 0x80#8] ++ List.replicate 59 0#8 ++ [0x18#8]) := by decide

/-- 41 R146: 56 bytes spill into a second block. -/
theorem test_pad_56 :
    (next? (exec .pad { stateAt Phase.pad with ARG := .byteSeq (List.replicate 56 0x61#8) })).map
        (fun s => (s.N, s.PM.memRead 56 8, s.PM.memRead 120 8)) =
      some (2#56, some 0x8000000000000000, some 0x1c0) := by decide +kernel

/-- 44 R190: the worked example. -/
theorem test_initH :
    (next? (exec .initH (stateAt Phase.initH))).map (fun s => (s.H.toList, s.j, s.PHASE)) =
      some ([0x6a09e667#32, 0xbb67ae85#32, 0x3c6ef372#32, 0xa54ff53a#32, 0x510e527f#32, 0x9b05688c#32, 0x1f83d9ab#32,
        0x5be0cd19#32], 0#56, 0x4#4) := by decide

/-- 42 R161: block 1 is bytes 64 to 127. -/
theorem test_loadblk_second_block :
    (next? (exec .loadblk { stateAt Phase.loadblk 64#7 with
        PM := Memory.ofBytes ((List.range 128).map (BitVec.ofNat 8)), N := 2#56, j := 1#56 })).map
      (fun s => (s.BLK[0], s.BLK[63], s.t, s.PHASE)) = some (64#8, 127#8, 0#7, 0x5#4) := by decide

/-- 10 R44: a byte without value faults. -/
theorem test_loadblk_no_value :
    fault? (exec .loadblk { stateAt Phase.loadblk with PM := Memory.ofBytes (List.replicate 63 0#8) }) =
      some (.noValue 63) := by decide

/-- 43 R171: the worked example. -/
theorem test_schedLd_first :
    (next? (exec .schedLd { stateAt Phase.schedLd with
        BLK := (((Vector.replicate 64 0#8).set 0 0x61#8).set 1 0x62#8).set 2 0x63#8 |>.set 3 0x80#8 })).map
      (fun s => (s.W[0], s.t, s.PHASE)) = some (0x61626380#32, 1#7, 0x5#4) := by decide

/-- 43 R171: no sign extension; the last load hands over to SCHED_EX. -/
theorem test_schedLd_last :
    (next? (exec .schedLd { stateAt Phase.schedLd 15#7 with BLK := (Vector.replicate 64 0#8).set 60 0xff#8 })).map
      (fun s => (s.W[15], s.t, s.PHASE)) = some (0xff000000#32, 16#7, 0x6#4) := by decide

/-- 43 R173: the worked example, `t = 17` of "abc". -/
theorem test_schedEx_17 :
    (next? (exec .schedEx { stateAt Phase.schedEx 17#7 with
        W := ((Vector.replicate 64 0#32).set 0 0x61626380#32).set 15 0x18#32 |>.set 16 0x61626380#32 })).map
      (fun s => (s.W[17], s.t, s.PHASE)) = some (0x000f0000#32, 18#7, 0x6#4) := by decide

/-- 43 R176: the last word of "abc", from its words 61, 56, 48 and 47. -/
theorem test_schedEx_63 :
    (next? (exec .schedEx { stateAt Phase.schedEx 63#7 with
        W := ((Vector.replicate 64 0#32).set 61 0x668b2ff8#32).set 56 0xef57b9cd#32 |>.set 48 0xfb3e89cb#32
          |>.set 47 0x065c43da#32 })).map
      (fun s => (s.W[63], s.t, s.PHASE)) = some (0x12b1edeb#32, 64#7, 0x7#4) := by decide

/-- 44 R192: the worked example. -/
theorem test_cinit :
    (next? (exec .cinit { stateAt Phase.cinit 64#7 with H := Config.IV })).map (fun s => (s.vars, s.t, s.PHASE)) =
      some (⟨0x6a09e667#32, 0xbb67ae85#32, 0x3c6ef372#32, 0xa54ff53a#32, 0x510e527f#32, 0x9b05688c#32, 0x1f83d9ab#32,
        0x5be0cd19#32⟩, 0#7, 0x8#4) := by decide

/-- 44 R195: the worked example, the first round of "abc". -/
theorem test_round_first :
    (next? (exec .round { stateAt Phase.round with
        vars := Vars.ofDigest Config.IV, W := (Vector.replicate 64 0#32).set 0 0x61626380#32 })).map
      (fun s => (s.vars, s.t, s.PHASE)) =
      some (⟨0x5d6aebcd#32, 0x6a09e667#32, 0xbb67ae85#32, 0x3c6ef372#32, 0xfa2a4622#32, 0x510e527f#32, 0x9b05688c#32,
        0x1f83d9ab#32⟩, 1#7, 0x8#4) := by decide

/-- 44 R203: the last round of "abc". -/
theorem test_round_last :
    (next? (exec .round { stateAt Phase.round 63#7 with
        vars := ⟨0xd39a2165#32, 0x04d24d6c#32, 0xb85e2ce9#32, 0xb6ae8fff#32, 0xfb121210#32, 0x948d25b6#32,
          0x961f4894#32, 0xb21bad3d#32⟩
        W := (Vector.replicate 64 0#32).set 63 0x12b1edeb#32 })).map (fun s => (s.vars, s.t, s.PHASE)) =
      some (⟨0x506e3058#32, 0xd39a2165#32, 0x04d24d6c#32, 0xb85e2ce9#32, 0x5ef50f24#32, 0xfb121210#32, 0x948d25b6#32,
        0x961f4894#32⟩, 64#7, 0x9#4) := by decide

/-- 44 R200: the worked example, the FOLD of "abc". -/
theorem test_fold_abc :
    (next? (exec .fold { stateAt Phase.fold 64#7 with
        H := Config.IV, N := 1#56
        vars := ⟨0x506e3058#32, 0xd39a2165#32, 0x04d24d6c#32, 0xb85e2ce9#32, 0x5ef50f24#32, 0xfb121210#32,
          0x948d25b6#32, 0x961f4894#32⟩ })).map (fun s => (s.H.toList, s.j, s.PHASE)) =
      some ([0xba7816bf#32, 0x8f01cfea#32, 0x414140de#32, 0x5dae2223#32, 0xb00361a3#32, 0x96177a9c#32, 0xb410ff61#32,
        0xf20015ad#32], 0#56, 0xA#4) := by decide

/-- 46 R245: another block follows. -/
theorem test_fold_next_block :
    (next? (exec .fold { stateAt Phase.fold 64#7 with N := 2#56 })).map (fun s => (s.j, s.PHASE)) =
      some (1#56, 0x4#4) := by decide

/-- 95 section 3.4, second row: leading zeros and lower case. -/
theorem test_fmt_zeros :
    (next? (exec .fmt { stateAt Phase.fmt with
        H := #v[0#32, 1#32, 0xa#32, 0xff#32, 0x01234567#32, 0x89abcdef#32, 0xffffffff#32, 0x80000000#32] })).map
      (fun s => (String.ofList (s.HEX.toList.map fun b => Char.ofNat b.toNat), s.PHASE)) =
      some ("00000000000000010000000a000000ff0123456789abcdefffffffff80000000", 0xB#4) := by decide +kernel

/-- 95 S2: `hash("abc")`. -/
theorem test_hash_abc :
    (next? (exec (.hash (.byteSeq abc)) State.reset)).map
      (fun s => (String.ofList (s.HEX.toList.map fun b => Char.ofNat b.toNat), s.PHASE, s.ERR)) =
      some ("ba7816bf8f01cfea414140de5dae2223b00361a396177a9cb410ff61f20015ad", 0xB#4, 0#1) := by decide +kernel

/-- 95 V6: 56 bytes of 0x61, two blocks. -/
theorem test_hash_two_blocks :
    (next? (exec (.hash (.byteSeq (List.replicate 56 0x61#8))) (stateAt Phase.fault))).map
      (fun s => (String.ofList (s.HEX.toList.map fun b => Char.ofNat b.toNat), s.N, s.j)) =
      some ("b35439a4ac6f0948b6d6f9e3c6af0f5f590ce20f1bde7090ef7970686ec6738a", 2#56, 1#56) := by decide +kernel

/-! ## The step -/

/-- 46 R247: nothing happens in IDLE until the host acts. -/
theorem test_step_waits : next? (step State.reset) = some State.reset := by decide

/-- The operation placed by each table word runs as the first after reset. -/
theorem test_placed_words_run :
    (List.range 10).all (fun w => (next? (step (State.reset.withFetchWord 8 (w + 1)))).isSome) = true := by decide

/-- 30 R97: a reserved code has no step. -/
theorem test_step_reserved : refusal? (step (stateAt 0xD#4)) = some .reservedPhase := by decide

/-- 70 R300: reset abandons a running invocation. -/
theorem test_step_reset :
    next? (step { stateAt Phase.round 5#7 with host := [.reset, .start] }) =
      some { State.reset with host := [.start] } := by decide

/-! ## Witnesses: for every statement with hypotheses, what meets all of them; for a statement with several clauses, one
for each at a boundary of its range -/

theorem witness_EncodedOperationsDecodeBack :
    encodeBytes .check = some [0x01#8] ∧ encodeBytes .fmt = some [0x0A#8] ∧
    decode [0x0A#8, 0xFF#8] = .ok (.fmt, [0xFF#8]) := ⟨rfl, rfl, rfl⟩

theorem witness_StepPerformsTheEnabledOperation :
    (decodeCode (stateAt Phase.check).PHASE = .ok .check ∧ (stateAt Phase.check).host = []) ∧
    (decodeCode { stateAt Phase.fmt with host := [.start] }.PHASE = .ok .fmt ∧
      ∀ m rest, [HostMove.start] = m :: rest → m.actsWhileBusy = false) ∧
    (decodeCode { stateAt Phase.fold with host := [.wait] }.PHASE = .ok .fold ∧
      { stateAt Phase.fold with host := [.wait] }.host = .wait :: []) := by
  refine ⟨⟨rfl, rfl⟩, ⟨rfl, ?_⟩, rfl, rfl⟩
  intro m rest h
  cases h
  rfl

theorem witness_PlacedOperationRunsNext : (1 ≤ 1 ∧ 1 ≤ 10) ∧ (1 ≤ 10 ∧ 10 ≤ 10) := by decide

theorem witness_RestingEngineWaits :
    (State.reset.PHASE = Phase.idle ∧ State.reset.host = []) ∧
    ((stateAt Phase.done).PHASE = Phase.done ∧ (stateAt Phase.done).host = []) ∧
    ((stateAt Phase.fault).PHASE = Phase.fault ∧ (stateAt Phase.fault).host = []) := by decide

theorem witness_ReservedPhaseHasNoStep :
    (13 ≤ (stateAt 13#4).PHASE.toNat ∧ ∀ rest, (stateAt 13#4).host ≠ .reset :: rest) ∧
    (13 ≤ (stateAt 15#4).PHASE.toNat ∧ ∀ rest, (stateAt 15#4).host ≠ .reset :: rest) :=
  ⟨⟨by decide, fun _ => nofun⟩, ⟨by decide, fun _ => nofun⟩⟩

theorem witness_HostMovesAreTakenAtRest :
    (State.reset.PHASE = Phase.idle ∧
      { State.reset with host := [.present .notByteSeq] }.host = .present .notByteSeq :: []) ∧
    ((stateAt Phase.done).PHASE = Phase.done ∧ { stateAt Phase.done with host := [.start] }.host = .start :: []) ∧
    ((stateAt Phase.fault).PHASE = Phase.fault ∧
      { stateAt Phase.fault with host := [.hash .notByteSeq] }.host = .hash .notByteSeq :: []) := by decide

theorem witness_ResetReturnsToIdle :
    { stateAt Phase.round with host := [.reset, .start] }.host = .reset :: [.start] := by decide

theorem witness_HostReadsTheResultInDone : (stateAt Phase.done).PHASE = Phase.done := by decide

theorem witness_StartEntersCheck :
    (State.reset.PHASE = Phase.idle ∧ (stateAt Phase.done).PHASE = Phase.done ∧
      (stateAt Phase.fault).PHASE = Phase.fault) ∧
    ((stateAt Phase.check).PHASE ≠ Phase.idle ∧ (stateAt Phase.check).PHASE ≠ Phase.done ∧
      (stateAt Phase.check).PHASE ≠ Phase.fault) ∧
    ((stateAt 13#4).PHASE ≠ Phase.idle ∧ (stateAt 13#4).PHASE ≠ Phase.done ∧
      (stateAt 13#4).PHASE ≠ Phase.fault) := by decide

theorem witness_CheckRejectsOrAccepts :
    (∃ s : State, s.PHASE = Phase.check ∧ s.ARG = .notByteSeq) ∧
    (∃ (s : State) (msg : List Byte), s.PHASE = Phase.check ∧ s.ARG = .byteSeq msg ∧ 2 ^ 61 - 1 < msg.length) ∧
    (∃ (s : State) (msg : List Byte), s.PHASE = Phase.check ∧ s.ARG = .byteSeq msg ∧ msg.length = 2 ^ 61 - 1) ∧
    (∃ (s : State) (msg : List Byte), s.PHASE = Phase.check ∧ s.ARG = .byteSeq msg ∧ msg.length = 0) := by
  obtain ⟨m1, h1⟩ := exists_message (2 ^ 61)
  obtain ⟨m2, h2⟩ := exists_message (2 ^ 61 - 1)
  exact ⟨⟨{ stateAt Phase.check with ARG := .notByteSeq }, rfl, rfl⟩,
    ⟨{ stateAt Phase.check with ARG := .byteSeq m1 }, m1, rfl, rfl, by rw [h1]; decide⟩,
    ⟨{ stateAt Phase.check with ARG := .byteSeq m2 }, m2, rfl, rfl, h2⟩,
    ⟨stateAt Phase.check, [], rfl, rfl, rfl⟩⟩

/-- Also the witness of PadBytesInClosedForm, whose hypotheses are the same; the shortest and the longest message. -/
theorem witness_PadWritesThePaddedMessage :
    ((stateAt Phase.pad).PHASE = Phase.pad ∧ (stateAt Phase.pad).ARG = .byteSeq [] ∧
      ([] : List Byte).length ≤ 2 ^ 61 - 1) ∧
    (∃ (s : State) (msg : List Byte), s.PHASE = Phase.pad ∧ s.ARG = .byteSeq msg ∧ msg.length = 2 ^ 61 - 1) := by
  obtain ⟨m, h⟩ := exists_message (2 ^ 61 - 1)
  exact ⟨⟨rfl, rfl, by decide⟩, ⟨{ stateAt Phase.pad with ARG := .byteSeq m }, m, rfl, rfl, h⟩⟩

theorem witness_PadBytesInClosedForm :
    (stateAt Phase.pad).PHASE = Phase.pad ∧ { stateAt Phase.pad with ARG := .byteSeq abc }.ARG = .byteSeq abc ∧
    abc.length ≤ 2 ^ 61 - 1 ∧ 0 < 64 * blockCount abc.length ∧ 63 < 64 * blockCount abc.length ∧
    64 * blockCount abc.length ≤ 64 := by decide

theorem witness_PaddedLengthIsTheSmallestMultiple :
    64 % 64 = 0 ∧ abc.length + 9 ≤ 64 := by decide

theorem witness_InitHLoadsTheInitialDigest : (stateAt Phase.initH).PHASE = Phase.initH := by decide

/-- A state at LOADBLK whose one block is in PM; also for the statements about the operations of a block. -/
def atLoadblk : State := { stateAt Phase.loadblk with PM := Memory.ofBytes (paddedMessage []), N := 1#56 }

/-- The one block of the empty message (95 section 2.2): 0x80 and 63 zero bytes. -/
def emptyBlock : Vector Byte 64 := (Vector.replicate 64 0#8).set 0 0x80#8

theorem witness_LoadblkCopiesTheBlock :
    atLoadblk.PHASE = Phase.loadblk ∧ ∀ i : Fin 64,
      atLoadblk.PM.read (64 * atLoadblk.j.toNat + i.val) = some emptyBlock[i] := by decide

theorem witness_LoadblkFaultsOnAByteWithoutValue :
    ((stateAt Phase.loadblk).PHASE = Phase.loadblk ∧ 0 < 64 ∧
      (stateAt Phase.loadblk).PM.read (64 * (stateAt Phase.loadblk).j.toNat + 0) = none) ∧
    (63 < 64 ∧ (Memory.ofBytes (List.replicate 63 0#8)).read (64 * 0 + 63) = none ∧
      ∀ k < 63, ((Memory.ofBytes (List.replicate 63 0#8)).read (64 * 0 + k)).isSome) := by decide

theorem witness_SchedLdLoadsAWord :
    ((stateAt Phase.schedLd 0#7).t.toNat ≤ 15 ∧ (stateAt Phase.schedLd 0#7).PHASE = Phase.schedLd) ∧
    ((stateAt Phase.schedLd 15#7).t.toNat ≤ 15 ∧ (stateAt Phase.schedLd 15#7).PHASE = Phase.schedLd) := by decide

theorem witness_SchedExExpandsAWord :
    ((16 ≤ (stateAt Phase.schedEx 16#7).t.toNat ∧ (stateAt Phase.schedEx 16#7).t.toNat ≤ 63) ∧
      (stateAt Phase.schedEx 16#7).PHASE = Phase.schedEx) ∧
    ((16 ≤ (stateAt Phase.schedEx 63#7).t.toNat ∧ (stateAt Phase.schedEx 63#7).t.toNat ≤ 63) ∧
      (stateAt Phase.schedEx 63#7).PHASE = Phase.schedEx) := by decide

theorem witness_CinitCopiesTheDigest : (stateAt Phase.cinit 64#7).PHASE = Phase.cinit := by decide

theorem witness_RoundMixesTheVariables :
    ((stateAt Phase.round 0#7).t.toNat ≤ 63 ∧ (stateAt Phase.round 0#7).PHASE = Phase.round) ∧
    ((stateAt Phase.round 63#7).t.toNat ≤ 63 ∧ (stateAt Phase.round 63#7).PHASE = Phase.round) := by decide

theorem witness_FoldAddsIntoTheDigest : (stateAt Phase.fold 64#7).PHASE = Phase.fold := by decide

theorem witness_FmtRendersTheDigest : (stateAt Phase.fmt).PHASE = Phase.fmt := by decide

theorem witness_OperationsStopOutsideTheirPhase :
    (encode .check = some 0x1#4 ∧ State.reset.PHASE ≠ 0x1#4) ∧
    (encode .fmt = some 0xA#4 ∧ (stateAt 0xF#4).PHASE ≠ 0xA#4) := by decide

theorem witness_IndexOutsideTheRangeFaults :
    ((stateAt Phase.schedLd 16#7).PHASE = Phase.schedLd ∧ 15 < (stateAt Phase.schedLd 16#7).t.toNat) ∧
    ((stateAt Phase.schedEx 15#7).PHASE = Phase.schedEx ∧ (stateAt Phase.schedEx 15#7).t.toNat < 16) ∧
    ((stateAt Phase.schedEx 64#7).PHASE = Phase.schedEx ∧ 63 < (stateAt Phase.schedEx 64#7).t.toNat) ∧
    ((stateAt Phase.round 64#7).PHASE = Phase.round ∧ 63 < (stateAt Phase.round 64#7).t.toNat) := by decide

theorem witness_HashComputesTheFunction :
    (State.reset.PHASE = Phase.idle ∧ ([] : List Byte).length ≤ 2 ^ 61 - 1) ∧
    ((stateAt Phase.done).PHASE = Phase.done ∧ abc.length ≤ 2 ^ 61 - 1) ∧
    ((stateAt Phase.fault).PHASE = Phase.fault ∧ ∃ msg : List Byte, msg.length = 2 ^ 61 - 1) :=
  ⟨by decide, by decide, by decide, exists_message _⟩

theorem witness_HashOfARejectedOperand :
    (State.reset.PHASE = Phase.idle ∧ ∃ msg : List Byte, 2 ^ 61 - 1 < msg.length) ∧
    ((stateAt Phase.check).PHASE ≠ Phase.idle ∧ (stateAt Phase.check).PHASE ≠ Phase.done ∧
      (stateAt Phase.check).PHASE ≠ Phase.fault) := by
  obtain ⟨m, h⟩ := exists_message (2 ^ 61)
  exact ⟨⟨rfl, m, by rw [h]; decide⟩, by decide⟩

/-- Two states that differ in every register an invocation could wrongly read. -/
theorem witness_InvocationDependsOnTheOperandAlone :
    State.reset.PHASE = Phase.idle ∧ { stateAt Phase.done 64#7 with H := Config.IV, ERR := 1#1 }.PHASE = Phase.done ∧
    State.reset.host = { stateAt Phase.done 64#7 with H := Config.IV, ERR := 1#1 }.host ∧
    State.reset ≠ { stateAt Phase.done 64#7 with H := Config.IV, ERR := 1#1 } := by decide

theorem witness_StartedEngineFinishesOnCount :
    (stateAt Phase.check).PHASE = Phase.check ∧ (stateAt Phase.check).host = [] ∧
    (stateAt Phase.check).ARG = .byteSeq [] ∧ ([] : List Byte).length ≤ 2 ^ 61 - 1 ∧
    (0 < 131 * blockCount 0 + 4 ∧ 134 < 131 * blockCount 0 + 4) := by decide

/-- Also the witness of ScheduleIsAFunctionOfTheBlock, whose hypotheses are the same. -/
theorem witness_BlockOperationsCompress :
    atLoadblk.PHASE = Phase.loadblk ∧ atLoadblk.host = [] ∧ ∀ i : Fin 64,
      atLoadblk.PM.read (64 * atLoadblk.j.toNat + i.val) = some emptyBlock[i] := by decide

theorem witness_ScheduleIsAFunctionOfTheBlock :
    atLoadblk.PHASE = Phase.loadblk ∧ atLoadblk.host = [] ∧ ∀ i : Fin 64,
      atLoadblk.PM.read (64 * atLoadblk.j.toNat + i.val) = some emptyBlock[i] := by decide

/-- An operation that completes and is none of the writers excluded: FMT. -/
theorem witness_WorkingVariablesHaveTwoWriters :
    (∃ t, exec .fmt (stateAt Phase.fmt) = .next t) ∧ (∀ arg, Instr.fmt ≠ .hash arg) ∧ Instr.fmt ≠ .cinit ∧
    Instr.fmt ≠ .round := ⟨⟨_, rfl⟩, fun _ => nofun, by decide, by decide⟩

theorem witness_DigestStateHasTwoWriters :
    (∃ t, exec .cinit (stateAt Phase.cinit) = .next t) ∧ (∀ arg, Instr.cinit ≠ .hash arg) ∧ Instr.cinit ≠ .initH ∧
    Instr.cinit ≠ .fold := ⟨⟨_, rfl⟩, fun _ => nofun, by decide, by decide⟩

theorem witness_ScheduleHasTwoWriters :
    ((∃ t, exec .cinit (stateAt Phase.cinit) = .next t) ∧ Instr.cinit ≠ .schedLd ∧ Instr.cinit ≠ .schedEx) ∧
    ((∃ t, exec .schedLd (stateAt Phase.schedLd 15#7) = .next t) ∧ (∀ arg, Instr.schedLd ≠ .hash arg) ∧
      (14 : Fin 64).val ≠ (stateAt Phase.schedLd 15#7).t.toNat) :=
  ⟨⟨⟨_, rfl⟩, by decide, by decide⟩, ⟨⟨_, rfl⟩, fun _ => nofun, by decide⟩⟩

theorem witness_BlockAndPaddedMessageHaveOneWriter :
    ((∃ t, exec .pad (stateAt Phase.pad) = .next t) ∧ Instr.pad ≠ .loadblk) ∧
    ((∃ t, exec .loadblk atLoadblk = .next t) ∧ (∀ arg, Instr.loadblk ≠ .hash arg) ∧ Instr.loadblk ≠ .pad) :=
  ⟨⟨⟨_, rfl⟩, by decide⟩, ⟨⟨_, rfl⟩, fun _ => nofun, by decide⟩⟩

theorem witness_StringAndFaultCodeWriters :
    (∃ t, exec .cinit (stateAt Phase.cinit) = .next t) ∧ (∀ arg, Instr.cinit ≠ .hash arg) ∧ Instr.cinit ≠ .fmt ∧
    Instr.cinit ≠ .start ∧ Instr.cinit ≠ .check := ⟨⟨_, rfl⟩, fun _ => nofun, by decide, by decide, by decide⟩

theorem witness_CountersHaveTheirWriters :
    ((∃ t, exec .round (stateAt Phase.round) = .next t) ∧ Instr.round ≠ .initH ∧ Instr.round ≠ .fold) ∧
    ((∃ t, exec .fold (stateAt Phase.fold) = .next t) ∧ (∀ arg, Instr.fold ≠ .hash arg) ∧ Instr.fold ≠ .loadblk ∧
      Instr.fold ≠ .schedLd ∧ Instr.fold ≠ .schedEx ∧ Instr.fold ≠ .cinit ∧ Instr.fold ≠ .round) :=
  ⟨⟨⟨_, rfl⟩, by decide, by decide⟩, ⟨⟨_, rfl⟩, fun _ => nofun, by decide, by decide, by decide, by decide, by decide⟩⟩

theorem witness_OperandIsKept :
    (∃ t, exec .start State.reset = .next t) ∧ (∀ arg, Instr.start ≠ .hash arg) ∧
    (∃ t, exec (.hash .notByteSeq) State.reset = .next t) := ⟨⟨_, rfl⟩, fun _ => nofun, ⟨_, rfl⟩⟩

/-- START, FMT, HASH of an operand that is no byte sequence, and both arms of FOLD. -/
theorem witness_OperationsFollowTheTransitionTable :
    (∃ t, exec .start State.reset = .next t) ∧ (∃ t, exec .fmt (stateAt Phase.fmt) = .next t) ∧
    (∃ t, exec (.hash .notByteSeq) State.reset = .next t) ∧
    (({ stateAt Phase.fold 64#7 with N := 2#56 } : State).j.toNat + 1 < 2 ∧
      ∃ t, exec .fold { stateAt Phase.fold 64#7 with N := 2#56 } = .next t) ∧
    (({ stateAt Phase.fold 64#7 with N := 1#56 } : State).j.toNat + 1 = 1 ∧
      ∃ t, exec .fold { stateAt Phase.fold 64#7 with N := 1#56 } = .next t) :=
  ⟨⟨_, rfl⟩, ⟨_, rfl⟩, ⟨_, rfl⟩, ⟨by decide, _, rfl⟩, ⟨by decide, _, rfl⟩⟩

theorem witness_OnlyCheckTakesTheException :
    ∃ t, exec .check { stateAt Phase.check with ARG := .notByteSeq } = .next t ∧ (∀ arg, Instr.check ≠ .hash arg) ∧
      t.PHASE = Phase.fault ∧ (stateAt Phase.check).ERR = 0#1 ∧ t.ERR = 1#1 :=
  ⟨_, rfl, fun _ => nofun, rfl, rfl, rfl⟩

/-- A legal state in the middle of a block, and a step from it. -/
theorem witness_LegalStatesStayLegal :
    ({ atLoadblk with PHASE := Phase.round, t := 63#7 } : State).Legal ∧
    ∃ t, step { atLoadblk with PHASE := Phase.round, t := 63#7 } = .next t := by
  refine ⟨?_, _, rfl⟩
  have hPM : ({ atLoadblk with PHASE := Phase.round, t := 63#7 } : State).HoldsPaddedMessage :=
    ⟨[], rfl, by decide, rfl, by decide⟩
  constructor
  case block => exact fun _ => ⟨hPM, by decide⟩
  case padded => exact fun h => absurd h (by decide)
  all_goals decide

theorem witness_LegalStatesNeverStop :
    ({ atLoadblk with PHASE := Phase.round, t := 63#7 } : State).Legal ∧
    (({ atLoadblk with PHASE := Phase.round, t := 63#7 } : State).PHASE = Phase.check →
      ({ atLoadblk with PHASE := Phase.round, t := 63#7 } : State).ARG.withinLimit = true) ∧
    ({ atLoadblk with PHASE := Phase.round, t := 63#7 } : State).NextHashWithinLimit :=
  ⟨witness_LegalStatesStayLegal.1, fun _ => by decide, fun _ _ => nofun⟩

theorem witness_PaddedMessageStaysCanonical :
    atLoadblk.PM.wf ∧ ∃ t, step atLoadblk = .next t := ⟨by decide, _, rfl⟩

theorem witness_RotationKeepsEveryBit : 0 ≤ 31 ∧ 31 ≤ 31 ∧ 0 < 32 ∧ 31 < 32 := by decide

theorem witness_ChooseAndMajorityBitByBit : 0 < 32 ∧ 31 < 32 := by decide

/-- The last clause of DigestStringIsFaithful, on either side of the boundary between digits and letters. -/
theorem witness_DigestStringIsFaithful : (9#4).toNat ≤ 9 ∧ 10 ≤ (10#4).toNat := by decide

theorem witness_SigmasBitByBit : 0 < 32 ∧ 31 < 32 := by decide

/-- The empty message and the longest one. -/
theorem witness_LengthRegisterHoldsTheLength :
    ((stateAt Phase.pad).ARG = .byteSeq [] ∧ ([] : List Byte).length ≤ 2 ^ 61 - 1 ∧
      (stateAt Phase.pad).PHASE = Phase.pad) ∧
    (∃ (s : State) (msg : List Byte), s.ARG = .byteSeq msg ∧ msg.length = 2 ^ 61 - 1 ∧ s.PHASE = Phase.pad) := by
  obtain ⟨m, h⟩ := exists_message (2 ^ 61 - 1)
  exact ⟨⟨rfl, by decide, rfl⟩, ⟨{ stateAt Phase.pad with ARG := .byteSeq m }, m, rfl, h, rfl⟩⟩

theorem witness_MemReadAfterMemWrite :
    (Memory.ofBytes abc).wf ∧ (0 < 1 ∨ 1 + 2 ≤ 0) ∧ (3 < 1 ∨ 1 + 2 ≤ 3) := by decide

theorem witness_LoadedWordIsMemRead : 0 < 16 ∧ 15 < 16 := by decide

end Sys2Proof.Tests
end

/-! PROOFS. The scope's byte spaces (00_scope R13): a read of a byte without a value, and MemRead after MemWrite. -/

namespace Sys2Proof.Machine

/-! ## The first byte without a value -/

theorem Memory.firstMissing_eq_some_of_forall_lt {m : Memory} {a n i : Nat} (hi : i < n)
    (hnone : m.read (a + i) = none) (hlt : ∀ k < i, (m.read (a + k)).isSome) :
    m.firstMissing a n = some (a + i) := by
  have hfind : (List.range n).find? (fun k => (m.read (a + k)).isNone) = some i := by
    rw [List.find?_range_eq_some]
    exact ⟨by simp [hnone], List.mem_range.mpr hi, fun k hk => by simp [hlt k hk]⟩
  rw [Memory.firstMissing, hfind, Option.map_some]

/-! ## MemRead -/

@[simp] theorem Memory.memRead_zero (m : Memory) (i : Nat) : m.memRead i 0 = some 0 := rfl

theorem Memory.memRead_succ {m : Memory} {i n hi : Nat} {b : Byte} (hhi : m.memRead i n = some hi)
    (hb : m.read (i + n) = some b) : m.memRead i (n + 1) = some (hi * 256 + b.toNat) := by
  simp only [Memory.memRead, hhi, hb]

/-- MemRead sees no byte but those it reads. -/
theorem Memory.memRead_congr {m m' : Memory} {i n : Nat} (h : ∀ k < n, m.read (i + k) = m'.read (i + k)) :
    m.memRead i n = m'.memRead i n := by
  induction n with
  | zero => rfl
  | succ n ih => simp only [Memory.memRead, ih fun k hk => h k (by omega), h n (by omega)]

theorem Memory.memRead_write_of_le {m : Memory} {i n a : Nat} (v : Byte) (hm : m.wf) (ha : i + n ≤ a) :
    (m.write a v).memRead i n = m.memRead i n :=
  Memory.memRead_congr fun _ hk => Memory.read_write_other _ _ _ _ hm (by omega)

/-! ## MemWrite -/

theorem Memory.read_memWrite_of_outside {m : Memory} {i n a : Nat} (v : Nat) (hm : m.wf) (ha : a < i ∨ i + n ≤ a) :
    (m.memWrite i n v).read a = m.read a := by
  induction n generalizing v with
  | zero => rfl
  | succ n ih =>
    rw [Memory.memWrite, Memory.read_write_other _ _ _ _ (Memory.memWrite_wf m i n _ hm) (by omega)]
    exact ih _ (by omega)

/-- The last byte is the lowest digit to base 256, and the bytes before it are the others. -/
theorem mod_pow_succ_eq_digits (v n : Nat) : v % 256 ^ (n + 1) = v / 256 % 256 ^ n * 256 + v % 256 := by
  rw [pow_succ', Nat.mod_mul]
  omega

theorem Memory.memRead_memWrite (m : Memory) (i n v : Nat) (hm : m.wf) :
    (m.memWrite i n v).memRead i n = some (v % 256 ^ n) := by
  induction n generalizing v with
  | zero => simp [Nat.mod_one]
  | succ n ih =>
    have hwf : (m.memWrite i n (v / 256)).wf := Memory.memWrite_wf m i n _ hm
    have hhigh : (m.memWrite i (n + 1) v).memRead i n = some (v / 256 % 256 ^ n) :=
      (Memory.memRead_write_of_le _ hwf le_rfl).trans (ih _)
    have hlast : (m.memWrite i (n + 1) v).read (i + n) = some (BitVec.ofNat 8 v) :=
      Memory.read_write_same _ _ _ hwf
    rw [Memory.memRead_succ hhigh hlast, BitVec.toNat_ofNat, mod_pow_succ_eq_digits]

/-! ## The obligations -/

/-- Settles O17: the search for a byte without a value stops at the first one, where LOADBLK faults with its index. -/
theorem loadblkFaultsOnAByteWithoutValue : Obligations.LoadblkFaultsOnAByteWithoutValue := by
  unfold Obligations.LoadblkFaultsOnAByteWithoutValue
  intro s i hphase hi hnone hlt
  rw [exec_loadblk, execLoadblk_fault]
  exact ⟨hphase, _, Memory.firstMissing_eq_some_of_forall_lt hi hnone hlt, rfl⟩

/-- Settles O52, by induction on the number of bytes: writing the last byte leaves those before it, which hold the
higher digits to base 256. -/
theorem memReadAfterMemWrite : Obligations.MemReadAfterMemWrite := by
  unfold Obligations.MemReadAfterMemWrite
  intro m i n v hm
  exact ⟨Memory.memRead_memWrite m i n v hm, fun _ ha => Memory.read_memWrite_of_outside v hm ha⟩

end Sys2Proof.Machine

/-! PROOFS. The state's frames (10_state R20 to R37): what each completed operation leaves, stated once, and an
invariant of the engine's operations as an invariant of the step. -/

namespace Sys2Proof.Machine

/-! ## What a completed operation leaves -/

/-- From `s` to `s'` nothing changed but the elements that the spec lets the operation `i` write (10_state R20 to R37). -/
structure WritesOnlyItsOwn (i : Instr) (s s' : State) : Prop where
  vars : i ≠ .cinit → i ≠ .round → s'.vars = s.vars
  H : i ≠ .initH → i ≠ .fold → s'.H = s.H
  W : i ≠ .schedLd → i ≠ .schedEx → s'.W = s.W
  word : ∀ k : Fin 64, k.val ≠ s.t.toNat → s'.W[k] = s.W[k]
  BLK : i ≠ .loadblk → s'.BLK = s.BLK
  PM : i ≠ .pad → s'.PM = s.PM
  N : i ≠ .pad → s'.N = s.N
  HEX : i ≠ .fmt → s'.HEX = s.HEX
  j : i ≠ .initH → i ≠ .fold → s'.j = s.j
  t : i ≠ .loadblk → i ≠ .schedLd → i ≠ .schedEx → i ≠ .cinit → i ≠ .round → s'.t = s.t
  ERR : i ≠ .start → i ≠ .check → s'.ERR = s.ERR
  ARG : s'.ARG = s.ARG
  host : s'.host = s.host

/-- Every operation but HASH writes only its own elements: each meaning's chain of updates names them. -/
theorem exec_writesOnlyItsOwn {i : Instr} {s t : State} (h : exec i s = .next t) (hi : ∀ arg, i ≠ .hash arg) :
    WritesOnlyItsOwn i s t := by
  cases i with
  | hash arg => exact absurd rfl (hi arg)
  | start => obtain ⟨-, rfl⟩ := execStart_next.mp h; constructor <;> simp
  | check => obtain ⟨-, ⟨-, rfl⟩ | ⟨-, -, rfl⟩⟩ := execCheck_next.mp h <;> constructor <;> simp
  | pad => obtain ⟨-, msg, -, -, rfl⟩ := execPad_next.mp h; constructor <;> simp
  | initH => obtain ⟨-, rfl⟩ := execInitH_next.mp h; constructor <;> simp
  | loadblk => obtain ⟨-, -, rfl⟩ := execLoadblk_next.mp h; constructor <;> simp
  | schedLd =>
    obtain ⟨-, ht, rfl⟩ := execSchedLd_next.mp h
    constructor
    case word => exact fun k hk => by simpa using Vector.getElem_set_ne _ k.isLt hk.symm
    all_goals simp
  | schedEx =>
    obtain ⟨-, ht, rfl⟩ := execSchedEx_next.mp h
    constructor
    case word => exact fun k hk => by simpa using Vector.getElem_set_ne _ k.isLt hk.symm
    all_goals simp
  | cinit => obtain ⟨-, rfl⟩ := execCinit_next.mp h; constructor <;> simp
  | round => obtain ⟨-, -, rfl⟩ := execRound_next.mp h; constructor <;> simp
  | fold => obtain ⟨-, rfl⟩ := execFold_next.mp h; constructor <;> simp
  | fmt => obtain ⟨-, rfl⟩ := execFmt_next.mp h; constructor <;> simp

/-! ## From the engine's operations to HASH and the step -/

/-- What every operation but HASH keeps, the engine's own step keeps. -/
theorem engineStep_keeps {P : State → Prop}
    (hP : ∀ i s t, (∀ arg, i ≠ .hash arg) → P s → exec i s = .next t → P t) {s t : State} (hs : P s)
    (h : engineStep s = .next t) : P t := by
  rcases engineStep_next h with ⟨-, rfl⟩ | ⟨i, hi, h⟩
  · exact hs
  · exact hP i s t (fun arg he => decodeCode_ne_hash s.PHASE arg (he ▸ hi)) hs h

/-- HASH keeps what every other operation keeps, once it has presented its operand and performed START. -/
theorem execHash_keeps {P : State → Prop}
    (hP : ∀ i s t, (∀ arg, i ≠ .hash arg) → P s → exec i s = .next t → P t) {arg : Arg} {s t : State}
    (hs : s.isResting = true → P (s.setARG arg)) (h : execHash arg s = .next t) : P t := by
  obtain ⟨hr, hrun⟩ := execHash_next.mp h
  have hstart : P (s.setARG arg).startCommand := hP .start _ _ nofun (hs hr) (execStart_next.mpr ⟨hr, rfl⟩)
  refine runOperations_keeps (fun u v hu huv => ?_) hstart hrun
  rw [enabledOperation_eq_engineStep] at huv
  exact engineStep_keeps hP hu huv

/-- An invariant of the step: it holds after reset, depends neither on the host's moves nor, at rest, on the operand
presented, and every operation but HASH keeps it. -/
theorem step_keeps {P : State → Prop} (hreset : P State.reset) (hhost : ∀ s rest, P s → P (s.setHost rest))
    (hARG : ∀ s arg, s.isResting = true → P s → P (s.setARG arg))
    (hP : ∀ i s t, (∀ arg, i ≠ .hash arg) → P s → exec i s = .next t → P t) {s t : State} (hs : P s)
    (h : step s = .next t) : P t := by
  rcases step_next h with ⟨rest, -, rfl⟩ | ⟨rest, h⟩ | ⟨hr, arg, rest, -, rfl⟩ | ⟨hr, rest, -, rfl⟩ |
    ⟨hr, arg, rest, -, h⟩
  · exact hhost _ _ hreset
  · exact engineStep_keeps hP (hhost _ _ hs) h
  · exact hARG _ _ hr (hhost _ _ hs)
  · exact hP .start (s.setHost rest) _ nofun (hhost _ _ hs) (execStart_next.mpr ⟨hr, rfl⟩)
  · exact execHash_keeps hP (fun hr => hARG _ _ hr (hhost _ _ hs)) h

/-! ## The obligations -/

/-- Settles O33, from the frame of the one operation. -/
theorem workingVariablesHaveTwoWriters : Obligations.WorkingVariablesHaveTwoWriters := by
  unfold Obligations.WorkingVariablesHaveTwoWriters
  exact fun _ _ _ h hi => (exec_writesOnlyItsOwn h hi).vars

/-- Settles O34, from the frame of the one operation. -/
theorem digestStateHasTwoWriters : Obligations.DigestStateHasTwoWriters := by
  unfold Obligations.DigestStateHasTwoWriters
  exact fun _ _ _ h hi => (exec_writesOnlyItsOwn h hi).H

/-- Settles O35, from the frame of the one operation: SCHED_LD and SCHED_EX set the word at `t`. -/
theorem scheduleHasTwoWriters : Obligations.ScheduleHasTwoWriters := by
  unfold Obligations.ScheduleHasTwoWriters
  intro i s t h hi
  have hframe := exec_writesOnlyItsOwn h hi
  exact ⟨hframe.W, hframe.word⟩

/-- Settles O36, from the frame of the one operation: PM is left whole, and so byte by byte. -/
theorem blockAndPaddedMessageHaveOneWriter : Obligations.BlockAndPaddedMessageHaveOneWriter := by
  unfold Obligations.BlockAndPaddedMessageHaveOneWriter
  intro i s t h hi
  have hframe := exec_writesOnlyItsOwn h hi
  exact ⟨hframe.BLK, fun hpad => ⟨hframe.N hpad, fun a => by rw [hframe.PM hpad]⟩⟩

/-- Settles O37, from the frame of the one operation. -/
theorem stringAndFaultCodeWriters : Obligations.StringAndFaultCodeWriters := by
  unfold Obligations.StringAndFaultCodeWriters
  intro i s t h hi
  have hframe := exec_writesOnlyItsOwn h hi
  exact ⟨hframe.HEX, hframe.ERR⟩

/-- Settles O38, from the frame of the one operation. -/
theorem countersHaveTheirWriters : Obligations.CountersHaveTheirWriters := by
  unfold Obligations.CountersHaveTheirWriters
  intro i s t h hi
  have hframe := exec_writesOnlyItsOwn h hi
  exact ⟨hframe.j, hframe.t⟩

/-- HASH ends with the operand it presented and the host's moves it found. -/
theorem execHash_host_ARG {arg : Arg} {s t : State} (h : execHash arg s = .next t) :
    t.host = s.host ∧ t.ARG = arg := by
  refine execHash_keeps (arg := arg) (P := fun u => u.host = s.host ∧ u.ARG = arg) (fun i u v hi hu huv => ?_)
    (fun _ => ⟨rfl, rfl⟩) h
  have hframe := exec_writesOnlyItsOwn huv hi
  exact ⟨hframe.host.trans hu.1, hframe.ARG.trans hu.2⟩

/-- Settles O39: the frame of the one operation, and for HASH the frames of the operations it performs. -/
theorem operandIsKept : Obligations.OperandIsKept := by
  unfold Obligations.OperandIsKept
  intro i s t h
  by_cases hi : ∀ arg, i ≠ .hash arg
  · have hframe := exec_writesOnlyItsOwn h hi
    exact ⟨hframe.host, fun _ => hframe.ARG, fun arg he => absurd he (hi arg)⟩
  · obtain ⟨arg, rfl⟩ : ∃ arg, i = .hash arg := by simpa using hi
    obtain ⟨hhost, hARG⟩ := execHash_host_ARG h
    refine ⟨hhost, fun hne => absurd rfl (hne arg), fun arg' he => ?_⟩
    rw [hARG, Instr.hash.inj he]

/-- PAD writes PM anew in canonical form, and no other operation writes it. -/
theorem exec_keeps_PM_wf {i : Instr} {s t : State} (hi : ∀ arg, i ≠ .hash arg) (hs : s.PM.wf)
    (h : exec i s = .next t) : t.PM.wf := by
  by_cases hpad : i = .pad
  · subst hpad
    obtain ⟨-, msg, -, -, rfl⟩ := execPad_next.mp h
    exact Memory.ofBytes_wf _
  · rw [(exec_writesOnlyItsOwn h hi).PM hpad]
    exact hs

/-- Settles O45: reset lists no byte, PAD writes a whole space, and everything else leaves PM. -/
theorem paddedMessageStaysCanonical : Obligations.PaddedMessageStaysCanonical := by
  unfold Obligations.PaddedMessageStaysCanonical
  exact fun _ _ hs h => step_keeps (P := fun u => u.PM.wf) List.Pairwise.nil (fun _ _ hu => hu)
    (fun _ _ _ hu => hu) (fun _ _ _ hi hu huv => exec_keeps_PM_wf hi hu huv) hs h

end Sys2Proof.Machine

/-! PROOFS. A legal state (10_state R35 to R37): which claims its phase leaves to prove, and that every operation, the
reset and the host's moves keep it. -/

namespace Sys2Proof.Machine

/-! ## What makes a state legal, phase by phase -/

/-- The counters are in the range of the phase (10_state R35, 46_hash_operation R241 to R245). -/
structure State.CountersInRange (s : State) : Prop where
  loading : s.PHASE = Phase.schedLd → s.t.toNat ≤ 15
  expanding : s.PHASE = Phase.schedEx → 16 ≤ s.t.toNat ∧ s.t.toNat ≤ 63
  expanded : s.PHASE = Phase.cinit → s.t = 64#7
  mixing : s.PHASE = Phase.round → s.t.toNat ≤ 63
  mixed : s.PHASE = Phase.fold → s.t = 64#7
  last : s.PHASE = Phase.fmt → s.j.toNat + 1 = s.N.toNat

theorem State.Legal.of_inBlockLoop {s : State} (hloop : inBlockLoop s.PHASE = true) (hERR : s.ERR = 0#1)
    (hPM : s.HoldsPaddedMessage) (hj : s.j.toNat < s.N.toNat) (hcount : s.CountersInRange) : s.Legal where
  phase := by
    have : ∀ c, inBlockLoop c = true → c.toNat ≤ 12 := by decide
    exact this _ hloop
  err := by
    have : ∀ c, inBlockLoop c = true → c ≠ Phase.fault := by decide
    simp [hERR, this _ hloop]
  canonical := by
    obtain ⟨msg, -, -, hPM, -⟩ := hPM
    exact hPM ▸ Memory.ofBytes_wf _
  accepted h := by rw [h] at hloop; exact absurd hloop (by decide)
  padded h := by rw [h] at hloop; exact absurd hloop (by decide)
  block _ := ⟨hPM, hj⟩
  loading := hcount.loading
  expanding := hcount.expanding
  expanded := hcount.expanded
  mixing := hcount.mixing
  mixed := hcount.mixed
  last := hcount.last
  result h := by rw [h] at hloop; exact absurd hloop (by decide)

/-- Outside the block loop no counter and, but after PAD, no padded message is claimed. -/
theorem State.Legal.of_not_inBlockLoop {s : State} (hloop : inBlockLoop s.PHASE = false) (hphase : s.PHASE.toNat ≤ 12)
    (herr : s.ERR = 1#1 ↔ s.PHASE = Phase.fault) (hwf : s.PM.wf)
    (haccepted : s.PHASE = Phase.pad → argIsByteSeq s.ARG = true ∧ s.len ≤ Config.maxLen)
    (hpadded : s.PHASE = Phase.initH → s.HoldsPaddedMessage)
    (hresult : s.PHASE = Phase.done → s.HEX = digestString s.H) : s.Legal where
  phase := hphase
  err := herr
  canonical := hwf
  accepted := haccepted
  padded := hpadded
  block h := by rw [hloop] at h; cases h
  loading h := by rw [h] at hloop; exact absurd hloop (by decide)
  expanding h := by rw [h] at hloop; exact absurd hloop (by decide)
  expanded h := by rw [h] at hloop; exact absurd hloop (by decide)
  mixing h := by rw [h] at hloop; exact absurd hloop (by decide)
  mixed h := by rw [h] at hloop; exact absurd hloop (by decide)
  last h := by rw [h] at hloop; exact absurd hloop (by decide)
  result := hresult

theorem State.Legal.ERR_eq_zero {s : State} (hs : s.Legal) (h : s.PHASE ≠ Phase.fault) : s.ERR = 0#1 :=
  (BitVec.eq_zero_or_eq_one s.ERR).resolve_right fun h1 => h (hs.err.mp h1)

/-- Legal says nothing of the host's moves. -/
theorem State.Legal.setHost {s : State} (hs : s.Legal) (rest : List HostMove) : (s.setHost rest).Legal :=
  ⟨hs.phase, hs.err, hs.canonical, hs.accepted, hs.padded, hs.block, hs.loading, hs.expanding, hs.expanded, hs.mixing,
    hs.mixed, hs.last, hs.result⟩

/-- At rest the host may present any operand. -/
theorem State.Legal.setARG {s : State} (hs : s.Legal) (arg : Arg) (hr : s.isResting = true) : (s.setARG arg).Legal := by
  have hrest : ∀ c, isRestingCode c = true → inBlockLoop c = false ∧ c ≠ Phase.pad ∧ c ≠ Phase.initH := by decide
  obtain ⟨hloop, hpad, hinitH⟩ := hrest _ hr
  exact .of_not_inBlockLoop hloop hs.phase hs.err hs.canonical (fun h => absurd h hpad) (fun h => absurd h hinitH)
    hs.result

/-- `N = length(PM) / 64` (41_padder R141, R142). -/
theorem paddedMessage_length_div (msg : List Byte) : (paddedMessage msg).length / 64 = blockCount msg.length := by
  rw [paddedMessage_length_blocks, Nat.mul_div_cancel_left _ (by decide)]

/-- The 56 bits of N hold the number of blocks (10_state R32). -/
theorem ofNat_blockCount_toNat {l : Nat} (hl : l ≤ Config.maxLen) :
    (BitVec.ofNat 56 (blockCount l)).toNat = blockCount l :=
  (BitVec.toNat_ofNat _ _).trans (Nat.mod_eq_of_lt (by have := blockCount_le hl; omega))

/-! ## The operations before and after the block loop -/

theorem State.Legal.after_start {s t : State} (hs : s.Legal) (h : execStart s = .next t) : t.Legal := by
  obtain ⟨-, rfl⟩ := execStart_next.mp h
  apply State.Legal.of_not_inBlockLoop
  case hwf => exact hs.canonical
  all_goals simp +decide

/-- CHECK either sets ERR with FAULT or lets an operand within the limit through. -/
theorem State.Legal.after_check {s t : State} (hs : s.Legal) (h : execCheck s = .next t) : t.Legal := by
  obtain ⟨hp, ⟨-, rfl⟩ | ⟨hA, hl, rfl⟩⟩ := execCheck_next.mp h
  · apply State.Legal.of_not_inBlockLoop
    case hwf => exact hs.canonical
    all_goals simp +decide
  · have hERR := hs.ERR_eq_zero (by rw [hp]; decide)
    apply State.Legal.of_not_inBlockLoop
    case hwf => exact hs.canonical
    case haccepted => exact fun _ => ⟨hA, hl⟩
    all_goals simp +decide [hERR]

/-- PAD writes the padded message of the operand and counts its blocks (41_padder R141, R142). -/
theorem State.Legal.after_pad {s t : State} (hs : s.Legal) (h : execPad s = .next t) : t.Legal := by
  obtain ⟨hp, msg, hA, hl, rfl⟩ := execPad_next.mp h
  have hERR := hs.ERR_eq_zero (by rw [hp]; decide)
  apply State.Legal.of_not_inBlockLoop
  case hwf => exact Memory.ofBytes_wf _
  case hpadded =>
    refine fun _ => ⟨msg, hA, hl, rfl, ?_⟩
    rw [State.setPHASE_N, State.setN_N, paddedMessage_length_div, ofNat_blockCount_toNat hl]
  all_goals simp +decide [hERR]

theorem State.Legal.after_initH {s t : State} (hs : s.Legal) (h : execInitH s = .next t) : t.Legal := by
  obtain ⟨hp, rfl⟩ := execInitH_next.mp h
  have hPM := hs.padded hp
  have hpos : 0 < s.N.toNat := hPM.blocks.1
  apply State.Legal.of_inBlockLoop
  case hERR => exact hs.ERR_eq_zero (by rw [hp]; decide)
  case hPM => exact hPM.congr (by simp) (by simp) (by simp)
  case hj => simpa using hpos
  case hcount => constructor <;> simp +decide
  case hloop => simp +decide

/-- FMT renders the digest words (45_formatter R221). -/
theorem State.Legal.after_fmt {s t : State} (hs : s.Legal) (h : execFmt s = .next t) : t.Legal := by
  obtain ⟨hp, rfl⟩ := execFmt_next.mp h
  have hERR := hs.ERR_eq_zero (by rw [hp]; decide)
  apply State.Legal.of_not_inBlockLoop
  case hwf => simpa using hs.canonical
  case hresult => simp
  all_goals simp +decide [hERR]

/-! ## The operations of the block loop -/

/-- An operation of the block loop that stays in it leaves the operand, PM, N and ERR, and all but FOLD leave `j`: only
the counters are to be looked at. -/
theorem State.Legal.next_inBlockLoop {i : Instr} {s t : State} {c : BitVec 4} (hs : s.Legal) (hp : s.PHASE = c)
    (h : exec i s = .next t) (hi : encode i = some c) (hloop : inBlockLoop c = true)
    (hj : i = .fold → t.j.toNat < s.N.toNat) (hloop' : inBlockLoop t.PHASE = true) (hcount : t.CountersInRange) :
    t.Legal := by
  subst hp
  have hframe := exec_writesOnlyItsOwn h (by rintro arg rfl; cases hi)
  have hne : ∀ {k : Instr}, (∀ c, encode k = some c → inBlockLoop c = false) → i ≠ k := by
    rintro k hk rfl
    rw [hk _ hi] at hloop
    cases hloop
  have hPM := hframe.PM (hne (by decide))
  have hN := hframe.N (hne (by decide))
  have hERR : t.ERR = s.ERR := hframe.ERR (hne (by decide)) (hne (by decide))
  have hnofault : ∀ c, inBlockLoop c = true → c ≠ Phase.fault := by decide
  obtain ⟨hholds, hjs⟩ := hs.block hloop
  have hjt : t.j.toNat < s.N.toNat := by
    by_cases hfold : i = .fold
    · exact hj hfold
    · rwa [hframe.j (hne (by decide)) hfold]
  exact .of_inBlockLoop hloop' (hERR.trans (hs.ERR_eq_zero (hnofault _ hloop))) (hholds.congr hframe.ARG hPM hN)
    (hN ▸ hjt) hcount

theorem State.Legal.after_loadblk {s t : State} (hs : s.Legal) (h : execLoadblk s = .next t) : t.Legal := by
  obtain ⟨hp, -, ht⟩ := execLoadblk_next.mp h
  refine hs.next_inBlockLoop hp (i := .loadblk) h rfl rfl nofun ?_ ?_
  · simp +decide [ht]
  · constructor <;> simp +decide [ht]

/-- The load loop counts to 16 (46_hash_operation R241). -/
theorem State.Legal.after_schedLd {s t : State} (hs : s.Legal) (h : execSchedLd s = .next t) : t.Legal := by
  obtain ⟨hp, hlt, ht⟩ := execSchedLd_next.mp h
  have hsucc := index_succ_toNat (show s.t.toNat < 127 by omega)
  refine hs.next_inBlockLoop hp (i := .schedLd) h rfl rfl nofun ?_ ?_
  · simp only [ht, State.setT_PHASE, State.setPHASE_PHASE, phaseAfterLoad]
    split <;> rfl
  · by_cases h15 : s.t = 15#7
    · constructor <;> simp +decide [ht, phaseAfterLoad, h15]
    · have hne : s.t.toNat ≠ 15 := mt (index_eq_iff _ 15 (by decide)).mpr h15
      constructor
      case loading => simp only [ht, State.setT_t, hsucc]; omega
      all_goals simp +decide [ht, phaseAfterLoad, h15]

/-- The expansion loop counts from 16 to 64 (46_hash_operation R242). -/
theorem State.Legal.after_schedEx {s t : State} (hs : s.Legal) (h : execSchedEx s = .next t) : t.Legal := by
  obtain ⟨hp, hlt, ht⟩ := execSchedEx_next.mp h
  have hsucc := index_succ_toNat (show s.t.toNat < 127 by omega)
  refine hs.next_inBlockLoop hp (i := .schedEx) h rfl rfl nofun ?_ ?_
  · simp only [ht, State.setT_PHASE, State.setPHASE_PHASE, phaseAfterExpand]
    split <;> rfl
  · by_cases h63 : s.t = 63#7
    · constructor <;> simp +decide [ht, phaseAfterExpand, h63]
    · have hne : s.t.toNat ≠ 63 := mt (index_eq_iff _ 63 (by decide)).mpr h63
      constructor
      case expanding => simp only [ht, State.setT_t, hsucc]; omega
      all_goals simp +decide [ht, phaseAfterExpand, h63]

theorem State.Legal.after_cinit {s t : State} (hs : s.Legal) (h : execCinit s = .next t) : t.Legal := by
  obtain ⟨hp, ht⟩ := execCinit_next.mp h
  refine hs.next_inBlockLoop hp (i := .cinit) h rfl rfl nofun ?_ ?_
  · simp +decide [ht]
  · constructor <;> simp +decide [ht]

/-- The round loop counts to 64 (46_hash_operation R244). -/
theorem State.Legal.after_round {s t : State} (hs : s.Legal) (h : execRound s = .next t) : t.Legal := by
  obtain ⟨hp, hlt, ht⟩ := execRound_next.mp h
  have hsucc := index_succ_toNat (show s.t.toNat < 127 by omega)
  refine hs.next_inBlockLoop hp (i := .round) h rfl rfl nofun ?_ ?_
  · simp only [ht, State.setT_PHASE, State.setPHASE_PHASE, phaseAfterRound]
    split <;> rfl
  · by_cases h63 : s.t = 63#7
    · constructor <;> simp +decide [ht, phaseAfterRound, h63]
    · have hne : s.t.toNat ≠ 63 := mt (index_eq_iff _ 63 (by decide)).mpr h63
      constructor
      case mixing => simp only [ht, State.setT_t, hsucc]; omega
      all_goals simp +decide [ht, phaseAfterRound, h63]

/-- Counting a block does not wrap (10_state R35). -/
theorem blockAfterFold_toNat {j N : BitVec 56} (h : j.toNat + 1 < N.toNat) :
    (blockAfterFold j N).toNat = j.toNat + 1 := by
  have := N.isLt
  rw [blockAfterFold, if_pos h, BitVec.toNat_add, BitVec.toNat_ofNat]
  omega

/-- FOLD takes the next block while there is one (46_hash_operation R245). -/
theorem State.Legal.after_fold {s t : State} (hs : s.Legal) (h : execFold s = .next t) : t.Legal := by
  obtain ⟨hp, ht⟩ := execFold_next.mp h
  obtain ⟨-, hj⟩ := hs.block (by rw [hp]; rfl)
  refine hs.next_inBlockLoop hp (i := .fold) h rfl rfl (fun _ => ?_) ?_ ?_
  · rw [ht, State.setJ_j]
    by_cases hnext : s.j.toNat + 1 < s.N.toNat
    · rwa [blockAfterFold_toNat hnext]
    · rwa [blockAfterFold, if_neg hnext]
  · simp only [ht, State.setJ_PHASE, State.setPHASE_PHASE, phaseAfterFold]
    split <;> rfl
  · by_cases hlast : s.j.toNat + 1 = s.N.toNat
    · constructor <;> simp +decide [ht, phaseAfterFold, blockAfterFold, hlast]
    · constructor <;> simp +decide [ht, phaseAfterFold, hlast]

/-! ## Every operation, and the step -/

theorem exec_keeps_legal {i : Instr} {s t : State} (hi : ∀ arg, i ≠ .hash arg) (hs : s.Legal)
    (h : exec i s = .next t) : t.Legal := by
  cases i with
  | hash arg => exact absurd rfl (hi arg)
  | start => exact hs.after_start h
  | check => exact hs.after_check h
  | pad => exact hs.after_pad h
  | initH => exact hs.after_initH h
  | loadblk => exact hs.after_loadblk h
  | schedLd => exact hs.after_schedLd h
  | schedEx => exact hs.after_schedEx h
  | cinit => exact hs.after_cinit h
  | round => exact hs.after_round h
  | fold => exact hs.after_fold h
  | fmt => exact hs.after_fmt h

/-- Settles O42: the reset state rests in IDLE with no fault, and PM lists no byte. -/
theorem resetStateIsLegal : Obligations.ResetStateIsLegal := by
  unfold Obligations.ResetStateIsLegal
  apply State.Legal.of_not_inBlockLoop
  case hpadded => exact fun h => absurd h (by decide)
  all_goals decide

/-- Settles O43: Legal is an invariant of the step, since it holds after reset, says nothing of the host's moves nor, at
rest, of the operand, and every operation keeps it. -/
theorem legalStatesStayLegal : Obligations.LegalStatesStayLegal := by
  unfold Obligations.LegalStatesStayLegal
  exact fun _ _ hs h => step_keeps resetStateIsLegal (fun _ rest hu => hu.setHost rest)
    (fun _ arg hr hu => hu.setARG arg hr) (fun _ _ _ hi hu huv => exec_keeps_legal hi hu huv) hs h

end Sys2Proof.Machine

/-! PROOFS. An invocation reads nothing that an earlier one or reset left (10_state R41, R44): up to LOADBLK it writes H,
PM, N, j, ERR and PHASE, each block writes a..h, W, BLK and t before it reads them, and FMT writes HEX. -/

namespace Sys2Proof.Machine

/-! ## What the block loop reads -/

/-- Two states that agree on every element but those that the operations from LOADBLK to FMT write before they read
them, which are a..h, W, BLK, HEX and `t`. -/
structure State.AgreeAtBlock (s t : State) : Prop where
  H : t.H = s.H
  PM : t.PM = s.PM
  N : t.N = s.N
  PHASE : t.PHASE = s.PHASE
  j : t.j = s.j
  ERR : t.ERR = s.ERR
  ARG : t.ARG = s.ARG
  host : t.host = s.host

theorem State.agreeAtBlock_setHEX (s : State) (v : Vector Byte 64) : s.AgreeAtBlock (s.setHEX v) := by
  constructor <;> simp

/-- The operations of a block leave one state from both, but for HEX: the schedule is a function of the block, and the
working variables start from H. -/
theorem runOperations_block_agree {s t : State} (h : s.AgreeAtBlock t) (hp : s.PHASE = Phase.loadblk)
    (hm : s.PM.firstMissing (blockIndex s.j.toNat 0) 64 = none) {u : State} (hu : runOperations 131 s = .next u) :
    runOperations 131 t = .next (u.setHEX t.HEX) := by
  obtain ⟨hH, hPM, hN, hPHASE, hj, hERR, hARG, hhost⟩ := h
  obtain ⟨w, hw, hrun⟩ := runOperations_block hp hm
  obtain ⟨w', hw', hrun'⟩ := runOperations_block (hPHASE.trans hp) (by rw [hPM, hj]; exact hm)
  have hww : w' = w := Vector.toList_inj.mp (by rw [hw, hw', hPM, hj])
  obtain rfl := next_eq_next_iff.mp (hu.symm.trans hrun)
  rw [hrun']
  simp only [hww, hH, hPM, hN, hj, hERR, hARG, hhost, State.mixing, State.setBLK_def, State.setW_def, State.setVars_def,
    State.setPHASE_def, State.setT_def, State.setH_def, State.setJ_def, State.setHEX_def]

/-- FMT does not read HEX. -/
theorem enabledOperation_setHEX_of_fmt {s : State} (hp : s.PHASE = Phase.fmt) (v : Vector Byte 64) :
    enabledOperation (s.setHEX v) = enabledOperation s := by
  rw [enabledOperation_of_fmt hp, enabledOperation_of_fmt (s := s.setHEX v) hp]
  simp only [execFmt, State.whenEnabled, State.setHEX_def, State.setPHASE_def]

/-- The blocks that remain, `k` after the one at `j`, and FMT end in one outcome from both. -/
theorem runOperations_blocks_fmt_agree {s t : State} (k : Nat) (h : s.AgreeAtBlock t) (hp : s.PHASE = Phase.loadblk)
    (hPM : s.HoldsPaddedMessage) (hj : s.j.toNat + (k + 1) = s.N.toNat) :
    runOperations (131 * (k + 1) + 1) s = runOperations (131 * (k + 1) + 1) t := by
  induction k generalizing s t with
  | zero =>
    have hm := hPM.firstMissing_eq_none (j := s.j.toNat) (by omega)
    obtain ⟨u, hrun, hpu, -⟩ := runOperations_block_effect hp hm
    rw [phaseAfterFold, if_pos (by omega)] at hpu
    rw [runOperations_add 1 hrun, runOperations_add 1 (runOperations_block_agree h hp hm hrun)]
    simp only [runOperations, enabledOperation_setHEX_of_fmt hpu]
  | succ k ih =>
    have hm := hPM.firstMissing_eq_none (j := s.j.toNat) (by omega)
    obtain ⟨u, hrun, hpu, hju, -, hPMu, hNu, -, -, hARGu, -⟩ := runOperations_block_effect hp hm
    rw [phaseAfterFold, if_neg (by omega)] at hpu
    have hju : u.j.toNat = s.j.toNat + 1 := by rw [hju, blockAfterFold_toNat (by omega)]
    rw [show 131 * (k + 1 + 1) + 1 = 131 + (131 * (k + 1) + 1) by omega, runOperations_add _ hrun,
      runOperations_add _ (runOperations_block_agree h hp hm hrun)]
    exact ih (u.agreeAtBlock_setHEX t.HEX) hpu (hPM.congr hARGu hPMu hNu) (by rw [hju, hNu]; omega)

/-! ## What an invocation reads -/

/-- CHECK, PAD and INIT_H of an operand within the limit, from START on (46_hash_operation R237 to R239). -/
theorem runOperations_to_loadblk (s : State) {msg : List Byte} (hl : msg.length ≤ Config.maxLen) :
    ∃ u, runOperations 3 (s.setARG (.byteSeq msg)).startCommand = .next u ∧ u.PHASE = Phase.loadblk ∧ u.H = Config.IV ∧
      u.PM = Memory.ofBytes (paddedMessage msg) ∧ u.N = BitVec.ofNat 56 (blockCount msg.length) ∧ u.j = 0#56 ∧
      u.ERR = 0#1 ∧ u.ARG = .byteSeq msg ∧ u.host = s.host := by
  have hcheck : enabledOperation (s.setARG (.byteSeq msg)).startCommand =
      .next ((s.setARG (.byteSeq msg)).startCommand.setPHASE Phase.pad) := by
    rw [enabledOperation_of_check (by simp), execCheck_next]
    exact ⟨by simp, .inr ⟨rfl, hl, rfl⟩⟩
  generalize hs₁ : (s.setARG (.byteSeq msg)).startCommand.setPHASE Phase.pad = s₁ at hcheck
  have hpad : enabledOperation s₁ = .next (((s₁.setPM (Memory.ofBytes (paddedMessage msg))).setN
      (BitVec.ofNat 56 ((paddedMessage msg).length / 64))).setPHASE Phase.initH) := by
    have hp : s₁.PHASE = Phase.pad := by simp [← hs₁]
    rw [enabledOperation_of_pad hp, execPad_next]
    exact ⟨hp, msg, by simp [← hs₁], hl, rfl⟩
  generalize hs₂ : ((s₁.setPM (Memory.ofBytes (paddedMessage msg))).setN
      (BitVec.ofNat 56 ((paddedMessage msg).length / 64))).setPHASE Phase.initH = s₂ at hpad
  have hinitH : enabledOperation s₂ = .next (((s₂.setH Config.IV).setJ 0#56).setPHASE Phase.loadblk) := by
    have hp : s₂.PHASE = Phase.initH := by simp [← hs₂]
    rw [enabledOperation_of_initH hp, execInitH_next]
    exact ⟨hp, rfl⟩
  have hrun := runOperations_succ 2 hcheck
  rw [runOperations_succ 1 hpad, runOperations_succ 0 hinitH, runOperations_zero] at hrun
  exact ⟨_, hrun, by simp [← hs₁, ← hs₂, paddedMessage_length_div]⟩

/-- Beyond MAXLEN an invocation is refused by CHECK (46_hash_operation R237). -/
theorem execHash_of_maxLen_lt {s : State} {msg : List Byte} (hr : s.isResting = true)
    (hl : Config.maxLen < msg.length) : execHash (.byteSeq msg) s = .refused .lengthBeyondMaxlen := by
  have hcheck : enabledOperation (s.setARG (.byteSeq msg)).startCommand = .refused .lengthBeyondMaxlen := by
    rw [enabledOperation_of_check (by simp), execCheck, State.whenEnabled_pos (by simp), if_neg (by simp [argIsByteSeq]),
      if_pos (by simpa [State.len, argBytes] using hl)]
  rw [execHash, State.whenResting_pos hr, operationCount, runOperations, hcheck]

/-- Settles O29: beyond MAXLEN both invocations are refused; within it they agree at LOADBLK on what the block loop
reads. -/
theorem invocationDependsOnTheOperandAlone : Obligations.InvocationDependsOnTheOperandAlone := by
  unfold Obligations.InvocationDependsOnTheOperandAlone
  intro s₁ s₂ msg hr₁ hr₂ hhost
  rw [← State.isResting_iff] at hr₁ hr₂
  rw [exec_hash, exec_hash]
  rcases Nat.lt_or_ge Config.maxLen msg.length with hl | hl
  · rw [execHash_of_maxLen_lt hr₁ hl, execHash_of_maxLen_lt hr₂ hl]
  · obtain ⟨u₁, hrun₁, hp₁, hH₁, hPM₁, hN₁, hj₁, hERR₁, hARG₁, hhost₁⟩ := runOperations_to_loadblk s₁ hl
    obtain ⟨u₂, hrun₂, hp₂, hH₂, hPM₂, hN₂, hj₂, hERR₂, hARG₂, hhost₂⟩ := runOperations_to_loadblk s₂ hl
    have hagree : u₁.AgreeAtBlock u₂ :=
      ⟨hH₂.trans hH₁.symm, hPM₂.trans hPM₁.symm, hN₂.trans hN₁.symm, hp₂.trans hp₁.symm, hj₂.trans hj₁.symm,
        hERR₂.trans hERR₁.symm, hARG₂.trans hARG₁.symm, by rw [hhost₂, hhost₁, hhost]⟩
    have hN : u₁.N.toNat = blockCount msg.length := by rw [hN₁, ofNat_blockCount_toNat hl]
    have hcount : operationCount (.byteSeq msg) = 3 + (131 * ((msg.length + 8) / 64 + 1) + 1) := by
      rw [operationCount, blockCount]
      omega
    rw [execHash, execHash, State.whenResting_pos hr₁, State.whenResting_pos hr₂, hcount, runOperations_add _ hrun₁,
      runOperations_add _ hrun₂]
    exact runOperations_blocks_fmt_agree _ hagree hp₁ ⟨msg, hARG₁, hl, hPM₁, hN⟩ (by rw [hN, hj₁, blockCount]; simp)

end Sys2Proof.Machine

/-! PROOFS. LEN and the length field (10_state R29, R39, 41_padder R141), what the host reads (10_state R45), and the
round constants (10_state R27). -/

namespace Sys2Proof.Machine

/-! ## The length field of the padded message -/

theorem byte64_toNat (v : BitVec 64) (k : Nat) : (byte64 v k).toNat = v.toNat / 2 ^ (56 - 8 * k) % 256 := by
  rw [byte64, BitVec.extractLsb'_toNat, Nat.shiftRight_eq_div_pow]

theorem LEN8_toNat (l : BitVec 61) : (LEN8 l).toNat = l.toNat * 8 := by
  have := l.isLt
  rw [LEN8, BitVec.toNat_shiftLeft, BitVec.toNat_setWidth, Nat.shiftLeft_eq]
  omega

theorem BE64_getElem? (v : BitVec 64) {k : Nat} (hk : k < 8) : (BE64 v)[k]? = some (byte64 v k) := by
  interval_cases k <;> rfl

/-- The first `n` of the eight bytes of a 64-bit value are its upper `8n` bits (40_primitives R124). -/
theorem Memory.memRead_of_byte64 {m : Memory} {i : Nat} {v : BitVec 64}
    (h : ∀ k < 8, m.read (i + k) = some (byte64 v k)) {n : Nat} (hn : n ≤ 8) :
    m.memRead i n = some (v.toNat / 2 ^ (64 - 8 * n)) := by
  induction n with
  | zero => rw [Memory.memRead_zero, Nat.div_eq_of_lt v.isLt]
  | succ n ih =>
    rw [Memory.memRead_succ (ih (by omega)) (h n (by omega)), byte64_toNat,
      show 64 - 8 * n = 64 - 8 * (n + 1) + 8 by omega, show 56 - 8 * n = 64 - 8 * (n + 1) by omega, Nat.pow_add,
      ← Nat.div_div_eq_div_mul]
    exact congrArg some (Nat.div_add_mod' _ 256)

/-- The last eight bytes of the padded message are the bit length, most significant byte first (41_padder R141). -/
theorem paddedMessage_lengthField (msg : List Byte) {k : Nat} (hk : k < 8) :
    (paddedMessage msg)[64 * blockCount msg.length - 8 + k]? =
      some (byte64 (LEN8 (BitVec.ofNat 61 msg.length)) k) := by
  have hlen := paddedMessage_length_blocks msg
  rw [paddedMessage, List.length_append, show ∀ v, (BE64 v).length = 8 from fun _ => rfl] at hlen
  rw [paddedMessage, List.getElem?_append_right (by omega), ← BE64_getElem? _ hk]
  congr 1
  omega

/-- Within MAXLEN the 61 bits of LEN hold the length (10_state R29, R39). -/
theorem State.LEN_toNat {s : State} {msg : List Byte} (hA : s.ARG = .byteSeq msg) (hl : msg.length ≤ Config.maxLen) :
    s.LEN.toNat = msg.length := by
  rw [Config.maxLen] at hl
  rw [State.LEN, State.len, hA, argBytes, BitVec.toNat_ofNat]
  omega

/-! ## The obligations -/

/-- Settles O56: LEN holds the length, and the last eight bytes PAD writes are those of `LEN8` of it. -/
theorem lengthRegisterHoldsTheLength : Obligations.LengthRegisterHoldsTheLength := by
  unfold Obligations.LengthRegisterHoldsTheLength
  intro s msg hA hl
  refine ⟨State.LEN_toNat hA hl, fun hp => ⟨_, execPad_next.mpr ⟨hp, msg, hA, hl, rfl⟩, ?_⟩⟩
  have hLEN : BitVec.ofNat 61 msg.length = s.LEN := by rw [State.LEN, State.len, hA, argBytes]
  have hread : (Memory.ofBytes (paddedMessage msg)).memRead (64 * blockCount msg.length - 8) 8 =
      some ((LEN8 (BitVec.ofNat 61 msg.length)).toNat / 2 ^ (64 - 8 * 8)) :=
    Memory.memRead_of_byte64 (fun k hk => by rw [Memory.read_ofBytes, paddedMessage_lengthField msg hk]) le_rfl
  simpa [paddedMessage_length_div, ofNat_blockCount_toNat hl, hLEN, LEN8_toNat] using hread

/-- Settles O9: each read is defined by the phase alone. -/
theorem hostReadsTheResultInDone : Obligations.HostReadsTheResultInDone := by
  unfold Obligations.HostReadsTheResultInDone
  exact fun _ => ⟨rfl, rfl, fun hdone => ⟨fun _ => if_pos hdone, fun _ => if_pos hdone⟩⟩

/-- Settles O55: the table is the concatenation of its two printed halves. -/
theorem roundConstantsAreThePrinted : Obligations.RoundConstantsAreThePrinted := by
  unfold Obligations.RoundConstantsAreThePrinted
  rfl

end Sys2Proof.Machine

/-! PROOFS. The byte form of the codes (30_encoding R95 to R97, log 7): decode and encode against each other, and the
operation a code names as the next step. -/

namespace Sys2Proof.Machine

/-! ## Codes and their bytes -/

/-- The decoder and the encoder agree on every operation, `Laws.EncodeDecode` constructor by constructor. -/
theorem decodeCode_eq_ok_iff (c : BitVec 4) (i : Instr) : decodeCode c = .ok i ↔ encode i = some c := by
  cases i with
  | start => exact Laws.EncodeDecode.start c
  | check => exact Laws.EncodeDecode.check c
  | pad => exact Laws.EncodeDecode.pad c
  | initH => exact Laws.EncodeDecode.initH c
  | loadblk => exact Laws.EncodeDecode.loadblk c
  | schedLd => exact Laws.EncodeDecode.schedLd c
  | schedEx => exact Laws.EncodeDecode.schedEx c
  | cinit => exact Laws.EncodeDecode.cinit c
  | round => exact Laws.EncodeDecode.round c
  | fold => exact Laws.EncodeDecode.fold c
  | fmt => exact Laws.EncodeDecode.fmt c
  | hash arg => exact Laws.EncodeDecode.hash arg c

/-- A byte with zero upper bits decodes as the code in its low four bits (log 7). -/
theorem decode_setWidth_cons (c : BitVec 4) (rest : List Byte) :
    decode (c.setWidth 8 :: rest) = (decodeCode c).map (·, rest) := by
  have hcode : (c.setWidth 8).setWidth 4 = c := BitVec.setWidth_setWidth_of_le c (by decide)
  have hlt : (c.setWidth 8).toNat < 16 := by
    rw [BitVec.toNat_setWidth]
    have := c.isLt
    omega
  rw [decode, if_pos hlt, hcode]
  cases decodeCode c <;> rfl

/-- The only bytes that decode to an operation are a code with zero upper bits and the rest handed back. -/
theorem decode_eq_ok_iff {bs rest : List Byte} {i : Instr} :
    decode bs = .ok (i, rest) ↔ ∃ c, encode i = some c ∧ bs = c.setWidth 8 :: rest := by
  constructor
  · intro h
    cases bs with
    | nil => cases h
    | cons b tail =>
      by_cases hb : b.toNat < 16
      · have hbyte : b = (b.setWidth 4).setWidth 8 := by bv_omega
        rw [hbyte, decode_setWidth_cons] at h
        cases hc : decodeCode (b.setWidth 4) with
        | error e => rw [hc] at h; cases h
        | ok k =>
          rw [hc] at h
          cases h
          exact ⟨_, (decodeCode_eq_ok_iff _ _).mp hc, congrArg (· :: _) hbyte⟩
      · rw [decode, if_neg hb] at h
        cases h
  · rintro ⟨c, hc, rfl⟩
    rw [decode_setWidth_cons, (decodeCode_eq_ok_iff c i).mpr hc]
    rfl

theorem encodeBytes_eq_some_iff {i : Instr} {bs : List Byte} :
    encodeBytes i = some bs ↔ ∃ c, encode i = some c ∧ bs = [c.setWidth 8] := by
  simp [encodeBytes, eq_comm]

/-- The codes 1 to 10 are those that name an operation (30_encoding R95). -/
theorem exists_decodeCode_eq_ok {c : BitVec 4} (h₁ : 1 ≤ c.toNat) (h₁₀ : c.toNat ≤ 10) :
    ∃ i, decodeCode c = .ok i := by
  have hne : ∀ c : BitVec 4, 1 ≤ c.toNat → c.toNat ≤ 10 → (decodeCode c).toOption.isSome := by decide
  have hc := hne c h₁ h₁₀
  cases hd : decodeCode c with
  | ok i => exact ⟨i, rfl⟩
  | error e => rw [hd] at hc; cases hc

/-- The codes 13 to 15 are reserved (30_encoding R97). -/
theorem decodeCode_of_reserved {c : BitVec 4} (h : 13 ≤ c.toNat) : decodeCode c = .error .reservedCode := by
  revert c; decide

/-- A table word that is a code names the operation of that code. -/
theorem decodeTableWord_of_decodeCode {w : Nat} {i : Instr} (hw : w < 16)
    (h : decodeCode (BitVec.ofNat 4 w) = .ok i) : decodeTableWord 8 w = some i := by
  have hbyte : BitVec.ofNat 8 w = (BitVec.ofNat 4 w).setWidth 8 := by bv_omega
  have hdecode : decode [BitVec.ofNat 8 w] = .ok (i, []) :=
    decode_eq_ok_iff.mpr ⟨_, (decodeCode_eq_ok_iff _ _).mp h, congrArg (· :: []) hbyte⟩
  rw [decodeTableWord, if_neg (by omega), hdecode]

/-! ## The step in a busy phase -/

/-- The move `wait` is taken beside the engine's own step (log 5). -/
theorem step_of_wait {s : State} {rest : List HostMove} (h : s.host = .wait :: rest) :
    step s = engineStep (s.setHost rest) := by
  rw [step, stepOnce, h]

/-- In a busy phase a host move that waits for a resting one does not disturb the engine (log 5). -/
theorem step_of_busy {s : State} (hbusy : s.isResting = false)
    (hwaits : ∀ m rest, s.host = m :: rest → m.actsWhileBusy = false) : step s = engineStep s := by
  rw [step, stepOnce]
  split
  next rest hhost => cases hwaits _ rest hhost
  next rest hhost => cases hwaits _ rest hhost
  next => rw [hbusy]; rfl

/-- A phase whose code decodes to anything but the resting answer is busy. -/
theorem isResting_eq_false_of_decodeCode {s : State} (h : decodeCode s.PHASE ≠ .error .restingPhase) :
    s.isResting = false :=
  Bool.eq_false_iff.mpr fun hr => h (decodeCode_of_isResting hr)

theorem engineStep_of_decodeCode {s : State} {i : Instr} (h : decodeCode s.PHASE = .ok i) :
    engineStep s = exec i s := by
  rw [engineStep, h]

theorem engineStep_of_reserved {s : State} (h : 13 ≤ s.PHASE.toNat) : engineStep s = .refused .reservedPhase := by
  rw [engineStep, decodeCode_of_reserved h]

/-- The host moves that placing an operation keeps begin with none that acts in a busy phase. -/
theorem State.placeCode_host_waits {s : State} {c : BitVec 4} {m : HostMove} {rest : List HostMove}
    (h : (s.placeCode c).host = m :: rest) : m.actsWhileBusy = false := by
  have hdrop : s.host.dropWhile HostMove.actsWhileBusy = m :: rest := h
  simpa [hdrop] using List.head?_dropWhile_not HostMove.actsWhileBusy s.host

/-! ## The obligations -/

/-- Settles O1: the decoder evaluates at the sixteen codes. -/
theorem phaseCodesNameTheirOperations : Obligations.PhaseCodesNameTheirOperations := by
  unfold Obligations.PhaseCodesNameTheirOperations
  exact ⟨⟨rfl, rfl, rfl, rfl, rfl, rfl, rfl, rfl, rfl, rfl⟩, ⟨rfl, rfl, rfl⟩, rfl, rfl, rfl⟩

/-- Settles O2: both directions are the one form that bytes of an operation have. -/
theorem encodedOperationsDecodeBack : Obligations.EncodedOperationsDecodeBack := by
  unfold Obligations.EncodedOperationsDecodeBack
  constructor
  · intro i bs rest h
    obtain ⟨c, hc, rfl⟩ := encodeBytes_eq_some_iff.mp h
    exact decode_eq_ok_iff.mpr ⟨c, hc, rfl⟩
  · intro i bs rest h
    obtain ⟨c, hc, rfl⟩ := decode_eq_ok_iff.mp h
    exact ⟨_, encodeBytes_eq_some_iff.mpr ⟨c, hc, rfl⟩, rfl⟩

/-- Settles O4: placing the word sets PHASE to its code and drops the host moves that would act first. -/
theorem placedOperationRunsNext : Obligations.PlacedOperationRunsNext := by
  unfold Obligations.PlacedOperationRunsNext
  intro s w h₁ h₁₀
  have hcode : (BitVec.ofNat 4 w).toNat = w := Nat.mod_eq_of_lt (by omega)
  obtain ⟨i, hi⟩ := exists_decodeCode_eq_ok (c := BitVec.ofNat 4 w) (by omega) (by omega)
  have hphase : decodeCode (s.withFetchWord 8 w).PHASE = .ok i := hi
  refine ⟨i, decodeTableWord_of_decodeCode (by omega) hi, ?_⟩
  calc step (s.withFetchWord 8 w)
      = engineStep (s.withFetchWord 8 w) :=
        step_of_busy (isResting_eq_false_of_decodeCode (by rw [hphase]; nofun)) fun _ _ => State.placeCode_host_waits
    _ = exec i (s.withFetchWord 8 w) := engineStep_of_decodeCode hphase

/-- Settles O6: whatever the host's next move but reset, the step is the engine's, which has none for the code. -/
theorem reservedPhaseHasNoStep : Obligations.ReservedPhaseHasNoStep := by
  unfold Obligations.ReservedPhaseHasNoStep
  intro s hphase hreset
  by_cases hwait : ∃ rest, s.host = .wait :: rest
  · obtain ⟨rest, hhost⟩ := hwait
    rw [step_of_wait hhost]
    exact engineStep_of_reserved hphase
  · have hwaits : ∀ m rest, s.host = m :: rest → m.actsWhileBusy = false := by
      intro m rest hhost
      cases m with
      | wait => exact absurd ⟨rest, hhost⟩ hwait
      | reset => exact absurd hhost (hreset rest)
      | present arg => rfl
      | start => rfl
      | hash arg => rfl
    rw [step_of_busy (isResting_eq_false_of_decodeCode (by rw [decodeCode_of_reserved hphase]; nofun)) hwaits,
      engineStep_of_reserved hphase]

end Sys2Proof.Machine

/-! PROOFS. The primitives on words (40_primitives R110 to R124): each as a number or bit by bit, and the two views of
the rotation. -/

namespace Sys2Proof.Machine

/-! ## One bit of each primitive -/

@[simp] theorem AND32_getLsbD (x y : Word) (i : Nat) : (AND32 x y).getLsbD i = (x.getLsbD i && y.getLsbD i) :=
  BitVec.getLsbD_and

@[simp] theorem XOR32_getLsbD (x y : Word) (i : Nat) : (XOR32 x y).getLsbD i = (x.getLsbD i ^^ y.getLsbD i) :=
  BitVec.getLsbD_xor

theorem NOT32_getLsbD (x : Word) {i : Nat} (hi : i < 32) : (NOT32 x).getLsbD i = !x.getLsbD i := by
  rw [NOT32, BitVec.getLsbD_not, decide_eq_true hi, Bool.true_and]

/-- The shift brings in zeros from above (40_primitives R116). -/
theorem SHR_getLsbD (x : Word) (n i : Nat) :
    (SHR x n).getLsbD i = (decide (i + n < 32) && x.getLsbD (i + n)) := by
  rw [SHR, BitVec.getLsbD_ushiftRight, Nat.add_comm n i]
  by_cases h : i + n < 32
  · rw [decide_eq_true h, Bool.true_and]
  · rw [decide_eq_false h, Bool.false_and, BitVec.getLsbD_of_ge _ _ (not_lt.mp h)]

/-- The bits above `31 - n` come round from the bottom (40_primitives R115). -/
theorem ROTR_getLsbD (x : Word) {n i : Nat} (hn : n < 32) (hi : i < 32) :
    (ROTR x n).getLsbD i = x.getLsbD ((i + n) % 32) := by
  rw [ROTR, BitVec.getLsbD_rotateRight_of_lt hn]
  by_cases h : i < 32 - n
  · rw [decide_eq_true h, cond_true, show (i + n) % 32 = n + i by omega]
  · rw [decide_eq_false h, decide_eq_true hi, cond_false, Bool.true_and, show (i + n) % 32 = i - (32 - n) by omega]

theorem Ch_getLsbD (x y z : Word) {i : Nat} (hi : i < 32) :
    (Ch x y z).getLsbD i = if x.getLsbD i = true then y.getLsbD i else z.getLsbD i := by
  rw [Ch, XOR32_getLsbD, AND32_getLsbD, AND32_getLsbD, NOT32_getLsbD x hi]
  cases x.getLsbD i <;> simp

theorem Maj_getLsbD_iff (x y z : Word) (i : Nat) :
    (Maj x y z).getLsbD i = true ↔
      2 ≤ (x.getLsbD i).toNat + (y.getLsbD i).toNat + (z.getLsbD i).toNat := by
  have hmajority : ∀ a b c : Bool, (((a && b) ^^ (a && c)) ^^ (b && c)) = true ↔ 2 ≤ a.toNat + b.toNat + c.toNat := by
    decide
  simpa only [Maj, XOR32_getLsbD, AND32_getLsbD] using hmajority _ _ _

/-! ## The primitives as numbers -/

theorem ADD32_toNat (x y : Word) : (ADD32 x y).toNat = (x.toNat + y.toNat) % 2 ^ 32 :=
  BitVec.toNat_add x y

theorem NOT32_toNat (x : Word) : (NOT32 x).toNat = 0xffffffff - x.toNat :=
  BitVec.toNat_not

theorem SHR_toNat (x : Word) (n : Nat) : (SHR x n).toNat = x.toNat / 2 ^ n := by
  rw [SHR, BitVec.toNat_ushiftRight, Nat.shiftRight_eq_div_pow]

/-- The low `n` bits go to the top, above the others, which move down by `n` (40_primitives R115). -/
theorem ROTR_toNat (x : Word) {n : Nat} (hn : n < 32) :
    (ROTR x n).toNat = x.toNat / 2 ^ n + x.toNat % 2 ^ n * 2 ^ (32 - n) := by
  have hpow : 2 ^ 32 = 2 ^ n * 2 ^ (32 - n) := by rw [← Nat.pow_add, Nat.add_sub_cancel' hn.le]
  have hlow : x.toNat >>> n < 2 ^ (32 - n) := by
    rw [Nat.shiftRight_eq_div_pow, Nat.div_lt_iff_lt_mul (Nat.two_pow_pos n), Nat.mul_comm, ← hpow]
    exact x.isLt
  have hhigh : x.toNat <<< (32 - n) % 2 ^ 32 = (x.toNat % 2 ^ n) <<< (32 - n) := by
    rw [Nat.shiftLeft_eq, hpow, Nat.mul_mod_mul_right, Nat.shiftLeft_eq]
  calc (ROTR x n).toNat
      = x.toNat >>> n ||| x.toNat <<< (32 - n) % 2 ^ 32 := by
        rw [ROTR, BitVec.toNat_rotateRight, Nat.mod_eq_of_lt hn]
    _ = (x.toNat % 2 ^ n) <<< (32 - n) + x.toNat >>> n := by
        rw [hhigh, Nat.or_comm, Nat.shiftLeft_add_eq_or_of_lt hlow]
    _ = x.toNat / 2 ^ n + x.toNat % 2 ^ n * 2 ^ (32 - n) := by
        rw [Nat.shiftLeft_eq, Nat.shiftRight_eq_div_pow, Nat.add_comm]

/-- The value after one more byte, Horner's rule to base 256. -/
theorem toNat_append_byte {w : Nat} (x : BitVec w) (b : Byte) : (x ++ b).toNat = x.toNat * 2 ^ 8 + b.toNat := by
  rw [BitVec.toNat_append, ← Nat.shiftLeft_add_eq_or_of_lt b.isLt, Nat.shiftLeft_eq]

theorem BE32_toNat (b0 b1 b2 b3 : Byte) :
    (BE32 b0 b1 b2 b3).toNat = b0.toNat * 2 ^ 24 + b1.toNat * 2 ^ 16 + b2.toNat * 2 ^ 8 + b3.toNat := by
  rw [BE32, toNat_append_byte, toNat_append_byte, toNat_append_byte]
  ring

/-! ## The obligations -/

/-- Settles O48: the two halves of the rotated word, as a sum and as bits. -/
theorem rotationKeepsEveryBit : Obligations.RotationKeepsEveryBit := by
  unfold Obligations.RotationKeepsEveryBit
  intro x n hn
  have hlt : n < 32 := Nat.lt_succ_of_le hn
  exact ⟨ROTR_toNat x hlt, fun _ hi => ROTR_getLsbD x hlt hi⟩

/-- Settles O47, one clause for each primitive. -/
theorem wordArithmeticIsUnsigned : Obligations.WordArithmeticIsUnsigned := by
  unfold Obligations.WordArithmeticIsUnsigned
  exact ⟨ADD32_toNat, NOT32_toNat, SHR_toNat⟩

/-- Settles O49: of the two terms of Ch one is zero in each bit, and Maj is the majority of any three bits. -/
theorem chooseAndMajorityBitByBit : Obligations.ChooseAndMajorityBitByBit := by
  unfold Obligations.ChooseAndMajorityBitByBit
  exact fun x y z i hi => ⟨Ch_getLsbD x y z hi, Maj_getLsbD_iff x y z i⟩

/-- Settles O50, one clause for each conversion. -/
theorem conversionsAreBigEndian : Obligations.ConversionsAreBigEndian := by
  unfold Obligations.ConversionsAreBigEndian
  refine ⟨BE32_toNat, fun v m => ?_, LEN8_toNat⟩
  rw [List.getElem?_map, BE64_getElem? v m.isLt, Option.map_some, byte64_toNat]

/-- Settles O54: each sigma is the exclusive or of its three terms, each of which brings one bit of the word to `i`. -/
theorem sigmasBitByBit : Obligations.SigmasBitByBit := by
  unfold Obligations.SigmasBitByBit
  intro x i hi
  have hrot {n : Nat} (hn : n < 32) : (ROTR x n).getLsbD i = x.getLsbD ((i + n) % 32) := ROTR_getLsbD x hn hi
  refine ⟨?_, ?_, ?_, ?_⟩
  · rw [BSIG0, XOR32_getLsbD, XOR32_getLsbD, hrot (by decide), hrot (by decide), hrot (by decide)]
  · rw [BSIG1, XOR32_getLsbD, XOR32_getLsbD, hrot (by decide), hrot (by decide), hrot (by decide)]
  · rw [SSIG0, XOR32_getLsbD, XOR32_getLsbD, hrot (by decide), hrot (by decide), SHR_getLsbD]
  · rw [SSIG1, XOR32_getLsbD, XOR32_getLsbD, hrot (by decide), hrot (by decide), SHR_getLsbD]

end Sys2Proof.Machine

/-! PROOFS. The padder (41_padder): the zero fill `k`, the bytes of the padded message by their index, and what PAD
writes. -/

namespace Sys2Proof.Machine

/-! ## The zero fill and the bit length -/

/-- The remainder of R142 is not negative, so reading it as a natural number loses nothing. -/
theorem padZeros_cast (l : Nat) : (padZeros l : Int) = (55 - (l : Int)) % 64 :=
  Int.toNat_of_nonneg (Int.emod_nonneg _ (by decide))

theorem padZeros_lt (l : Nat) : padZeros l < 64 := by
  have := padZeros_cast l
  omega

/-- The zero bytes end eight bytes before a block boundary (41_padder R141). -/
theorem add_padZeros_mod (l : Nat) : (l + 1 + padZeros l) % 64 = 56 := by
  have := padZeros_cast l
  omega

/-- Fewer zero bytes do not reach that place: two that do are equal modulo 64, and `padZeros` is below 64. -/
theorem padZeros_le_of_mod {l k : Nat} (h : (l + 1 + k) % 64 = 56) : padZeros l ≤ k := by
  have hlt := padZeros_lt l
  have hmod := add_padZeros_mod l
  omega

/-- Cutting a length to the 61 bits of LEN cuts its bit length to 64 bits (40_primitives R111). -/
theorem LEN8_ofNat (l : Nat) : LEN8 (BitVec.ofNat 61 l) = BitVec.ofNat 64 (l * 8) := by
  apply BitVec.eq_of_toNat_eq
  rw [LEN8_toNat, BitVec.toNat_ofNat, BitVec.toNat_ofNat]
  omega

/-! ## The bytes of the padded message by their index (41_padder R143) -/

theorem paddedMessage_getElem?_of_lt {msg : List Byte} {i : Nat} (hi : i < msg.length) :
    (paddedMessage msg)[i]? = msg[i]? := by
  rw [paddedMessage, List.append_assoc, List.append_assoc, List.getElem?_append_left hi]

theorem paddedMessage_getElem?_length (msg : List Byte) : (paddedMessage msg)[msg.length]? = some 0x80#8 := by
  rw [paddedMessage, List.append_assoc, List.append_assoc, List.getElem?_append_right le_rfl, Nat.sub_self]
  rfl

theorem paddedMessage_getElem?_zeroFill {msg : List Byte} {i : Nat} (hl : msg.length < i)
    (hi : i < 64 * blockCount msg.length - 8) : (paddedMessage msg)[i]? = some 0x00#8 := by
  have hlen : msg.length + 9 + padZeros msg.length = 64 * blockCount msg.length :=
    (paddedMessage_length msg).symm.trans (paddedMessage_length_blocks msg)
  have hfront : (msg ++ [0x80#8]).length = msg.length + 1 := List.length_append
  rw [paddedMessage, List.append_assoc, List.getElem?_append_right (by omega),
    List.getElem?_append_left (by rw [List.length_replicate]; omega), List.getElem?_replicate, if_pos (by omega)]

/-- Below `64N` the list has the bytes of the closed form, region by region. -/
theorem paddedMessage_getElem?_eq_paddedByte {msg : List Byte} {i : Nat} (hi : i < 64 * blockCount msg.length) :
    (paddedMessage msg)[i]? = some (paddedByte msg i) := by
  simp only [paddedByte]
  split_ifs with hmsg hmark hzero
  · rw [paddedMessage_getElem?_of_lt hmsg, List.getD_eq_getElem?_getD, List.getElem?_eq_getElem hmsg, Option.getD_some]
  · rw [hmark, paddedMessage_getElem?_length]
  · exact paddedMessage_getElem?_zeroFill (by omega) hzero
  · have hfield := paddedMessage_lengthField msg (k := i - (64 * blockCount msg.length - 8)) (by omega)
    rwa [show 64 * blockCount msg.length - 8 + (i - (64 * blockCount msg.length - 8)) = i by omega] at hfield

/-! ## The obligations -/

/-- Settles O14: `k` is below 64, so the padded length, a multiple of 64, is less than one block above `l + 9`. -/
theorem paddedLengthIsTheSmallestMultiple : Obligations.PaddedLengthIsTheSmallestMultiple := by
  unfold Obligations.PaddedLengthIsTheSmallestMultiple
  intro msg
  have hlen := paddedMessage_length msg
  have hblocks := paddedMessage_length_blocks msg
  have hk := padZeros_lt msg.length
  exact ⟨padZeros_cast _, Nat.le_of_lt_succ hk, hlen, rfl, hblocks, fun m hm hle => by omega⟩

/-- Settles O12: PAD writes `paddedMessage`, whose `padZeros` is the least `k`, and its number of blocks fits N. -/
theorem padWritesThePaddedMessage : Obligations.PadWritesThePaddedMessage := by
  unfold Obligations.PadWritesThePaddedMessage
  intro s msg hphase hA hl
  refine ⟨padZeros msg.length, BitVec.ofNat 56 (blockCount msg.length), add_padZeros_mod _,
    fun k hk h => absurd (padZeros_le_of_mod h) (Nat.not_le.mpr hk), ?_, ?_⟩
  · rw [ofNat_blockCount_toNat hl, ← paddedMessage_length_blocks, paddedMessage_length]
    omega
  · rw [exec_pad, execPad_next]
    refine ⟨hphase, msg, hA, hl, ?_⟩
    rw [paddedMessage_length_div, paddedMessage, LEN8_ofNat]
    rfl

/-- Settles O13: a byte of PM is the byte of the padded message at its index, which has `64N` bytes. -/
theorem padBytesInClosedForm : Obligations.PadBytesInClosedForm := by
  unfold Obligations.PadBytesInClosedForm
  intro s msg hphase hA hl
  refine ⟨_, execPad_next.mpr ⟨hphase, msg, hA, hl, rfl⟩, ?_, fun i hi => ?_, fun i hi => ?_⟩
  · rw [State.setPHASE_N, State.setN_N, paddedMessage_length_div, ofNat_blockCount_toNat hl]
  · rw [State.setPHASE_PM, State.setN_PM, State.setPM_PM, Memory.read_ofBytes, paddedMessage_getElem?_eq_paddedByte hi]
  · rw [State.setPHASE_PM, State.setN_PM, State.setPM_PM, Memory.read_ofBytes, List.getElem?_eq_none_iff,
      paddedMessage_length_blocks]
    exact hi

end Sys2Proof.Machine

/-! PROOFS. The segmenter (42_segmenter): what LOADBLK copies. -/

namespace Sys2Proof.Machine

/-- A block whose 64 bytes PM holds misses none of them. -/
theorem Memory.firstMissing_block_eq_none {m : Memory} {j : Nat} {v : Vector Byte 64}
    (h : ∀ i : Fin 64, m.read (64 * j + i.val) = some v[i]) : m.firstMissing (blockIndex j 0) 64 = none := by
  rw [Memory.firstMissing_eq_none_iff]
  intro i hi
  exact Option.isSome_of_eq_some (h ⟨i, hi⟩)

/-- Settles O16: no byte of the block is missing, so LOADBLK completes, and the block it loads is the one PM holds. -/
theorem loadblkCopiesTheBlock : Obligations.LoadblkCopiesTheBlock := by
  unfold Obligations.LoadblkCopiesTheBlock
  intro s v hphase hread
  rw [exec_loadblk, execLoadblk_next]
  refine ⟨hphase, Memory.firstMissing_block_eq_none hread, ?_⟩
  rw [blockOf_eq hread, State.setPHASE_def, State.setT_def, State.setBLK_def]

end Sys2Proof.Machine

/-! PROOFS. The scheduler (43_scheduler): the word SCHED_LD loads and the word SCHED_EX computes, the stop outside the
ranges of the index, and the schedule of a block. -/

namespace Sys2Proof.Machine

/-! ## The phase after a pass, by the index as a number -/

theorem phaseAfterLoad_eq (t : BitVec 7) :
    phaseAfterLoad t = if t.toNat = 15 then Phase.schedEx else Phase.schedLd :=
  if_congr (index_eq_iff t 15 (by decide)) rfl rfl

theorem phaseAfterExpand_eq (t : BitVec 7) :
    phaseAfterExpand t = if t.toNat = 63 then Phase.cinit else Phase.schedEx :=
  if_congr (index_eq_iff t 63 (by decide)) rfl rfl

/-! ## The loaded word as a number -/

/-- MemRead of four bytes is their big-endian word, digit by digit to base 256 (00_scope R13, 40_primitives R123). -/
theorem Memory.memRead_four {m : Memory} {i : Nat} {b0 b1 b2 b3 : Byte} (h0 : m.read i = some b0)
    (h1 : m.read (i + 1) = some b1) (h2 : m.read (i + 2) = some b2) (h3 : m.read (i + 3) = some b3) :
    m.memRead i 4 = some (BE32 b0 b1 b2 b3).toNat := by
  have hread1 : m.memRead i 1 = some b0.toNat := by
    rw [Memory.memRead_succ (m.memRead_zero i) h0, Nat.zero_mul, Nat.zero_add]
  rw [Memory.memRead_succ (Memory.memRead_succ (Memory.memRead_succ hread1 h1) h2) h3, BE32, toNat_append_byte,
    toNat_append_byte, toNat_append_byte]
  rfl

theorem Memory.read_ofBytes_toList {n : Nat} (B : Vector Byte n) {i : Nat} (hi : i < n) :
    (Memory.ofBytes B.toList).read i = some B[i] := by
  rw [Memory.read_ofBytes, Vector.getElem?_toList, Vector.getElem?_eq_getElem hi]

/-! ## A block's schedule -/

/-- The 65 operations from LOADBLK to the end of the expansion, when PM holds the block (43_scheduler R170, R172): they
leave BLK, W, PHASE and `t` written, W with the words of the block and the recurrence. -/
theorem runOperations_schedule {s : State} (hp : s.PHASE = Phase.loadblk)
    (hm : s.PM.firstMissing (blockIndex s.j.toNat 0) 64 = none) :
    ∃ w : Vector Word 64,
      runOperations 65 s = .next ((s.setBLK (blockOf s.PM s.j.toNat)).scheduling w Phase.cinit 64) ∧
      (∀ (i : Nat) (h : i < 16), w[i] = loadedWord (blockOf s.PM s.j.toNat) i h) ∧
      ∀ (i : Nat) (h : 16 ≤ i ∧ i < 64), w[i] = expandedWord w i h := by
  generalize hb : blockOf s.PM s.j.toNat = b
  have hload : enabledOperation s = .next ((s.setBLK b).scheduling s.W Phase.schedLd 0) := by
    rw [enabledOperation_of_loadblk hp, execLoadblk_next, hb]
    exact ⟨hp, hm, rfl⟩
  obtain ⟨w₁, hloads, hfirst⟩ := runOperations_loads (s.setBLK b) s.W le_rfl
  obtain ⟨w, hexpands, hkeep, hrec⟩ := runOperations_expands (s.setBLK b) w₁ le_rfl
  refine ⟨w, ?_, fun i h => (hkeep i h).trans (hfirst i h h), fun i h => hrec i h h.2⟩
  calc runOperations 65 s
      = runOperations (16 + 48) ((s.setBLK b).scheduling s.W Phase.schedLd 0) := runOperations_succ 64 hload
    _ = runOperations 48 ((s.setBLK b).scheduling w₁ Phase.schedEx 16) := runOperations_add 48 hloads
    _ = .next ((s.setBLK b).scheduling w Phase.cinit 64) := hexpands

/-! ## The obligations -/

/-- Settles O18: below 16 the loaded word is the big-endian word of its four bytes. -/
theorem schedLdLoadsAWord : Obligations.SchedLdLoadsAWord := by
  unfold Obligations.SchedLdLoadsAWord
  intro s ht hphase
  rw [exec_schedLd, execSchedLd_next]
  refine ⟨hphase, Nat.lt_succ_of_le ht, ?_⟩
  rw [phaseAfterLoad_eq, loadedWord, State.setT_def, State.setPHASE_def, State.setW_def]

/-- Settles O19: from 16 to 63 the word computed is the recurrence's, addition being that of words. -/
theorem schedExExpandsAWord : Obligations.SchedExExpandsAWord := by
  unfold Obligations.SchedExExpandsAWord
  intro s ht hphase
  rw [exec_schedEx, execSchedEx_next]
  refine ⟨hphase, ⟨ht.1, Nat.lt_succ_of_le ht.2⟩, ?_⟩
  rw [phaseAfterExpand_eq, expandedWord, ADD32, ADD32, ADD32, State.setT_def, State.setPHASE_def, State.setW_def]

/-- Settles O25: each operation faults exactly in its phase with an index outside its range. -/
theorem indexOutsideTheRangeFaults : Obligations.IndexOutsideTheRangeFaults := by
  unfold Obligations.IndexOutsideTheRangeFaults
  intro s
  refine ⟨fun hphase ht => ?_, fun hphase ht => ?_, fun hphase ht => ?_⟩
  · exact execSchedLd_fault.mpr ⟨hphase, ht, rfl⟩
  · exact execSchedEx_fault.mpr ⟨hphase, by omega, rfl⟩
  · exact execRound_fault.mpr ⟨hphase, ht, rfl⟩

/-- Settles O53: the four bytes that SCHED_LD joins are those of the block at `4t` to `4t + 3`. -/
theorem loadedWordIsMemRead : Obligations.LoadedWordIsMemRead := by
  unfold Obligations.LoadedWordIsMemRead
  intro B t ht
  exact Memory.memRead_four (Memory.read_ofBytes_toList B _) (Memory.read_ofBytes_toList B _)
    (Memory.read_ofBytes_toList B _) (Memory.read_ofBytes_toList B _)

/-- Settles O32: with no host move to come the 65 steps are LOADBLK and the two loops of the scheduler, and the words
they leave determine W. -/
theorem scheduleIsAFunctionOfTheBlock : Obligations.ScheduleIsAFunctionOfTheBlock := by
  unfold Obligations.ScheduleIsAFunctionOfTheBlock
  intro s v hphase hhost hread
  obtain ⟨w, hrun, hfirst, hrec⟩ := runOperations_schedule hphase (Memory.firstMissing_block_eq_none hread)
  rw [blockOf_eq hread] at hrun hfirst
  exact ⟨_, (core_run_eq_runOperations 65 hhost).trans hrun, rfl, toList_eq_functionalSchedule hfirst hrec,
    fun i => hfirst i.val i.isLt, rfl, rfl⟩

end Sys2Proof.Machine

/-! PROOFS. The compressor (44_compressor): what INIT_H, CINIT, ROUND and FOLD write, the source's sequential round, and
the operations of a whole block. -/

namespace Sys2Proof.Machine

/-! ## The tables and functions of the compressor, word by word -/

/-- The initial digest state is the eight printed words (10_state R28). -/
theorem IV_eq_printed : Config.IV = #v[0x6a09e667#32, 0xbb67ae85#32, 0x3c6ef372#32, 0xa54ff53a#32,
    0x510e527f#32, 0x9b05688c#32, 0x1f83d9ab#32, 0x5be0cd19#32] := rfl

theorem phaseAfterRound_eq (t : BitVec 7) :
    phaseAfterRound t = if t.toNat = 63 then Phase.fold else Phase.round :=
  if_congr (index_eq_iff t 63 (by decide)) rfl rfl

/-- FOLD pairs `H[0]` with `a` to `H[7]` with `h` (10_state R23, 44_compressor R200). -/
theorem foldedDigest_eq_words (H : Vector Word 8) (v : Vars) :
    foldedDigest H v = #v[H[0] + v.a, H[1] + v.b, H[2] + v.c, H[3] + v.d, H[4] + v.e, H[5] + v.f, H[6] + v.g,
      H[7] + v.h] := rfl

/-! ## The obligations -/

/-- Settles O31: with no host move to come the 131 steps are the operations of the block, which is the one PM holds. -/
theorem blockOperationsCompress : Obligations.BlockOperationsCompress := by
  unfold Obligations.BlockOperationsCompress
  intro s v hphase hhost hread
  obtain ⟨t, hrun, hPHASE, hj, hH, hPM, hN, hHEX, hERR, hARG, -⟩ :=
    runOperations_block_effect hphase (Memory.firstMissing_block_eq_none hread)
  rw [blockOf_eq hread] at hH
  exact ⟨t, (core_run_eq_runOperations 131 hhost).trans hrun, hH, hPHASE, hj, hPM, hN, hHEX, hERR, hARG⟩

/-- Settles O15: INIT_H loads the table IV, whose words are the printed ones. -/
theorem initHLoadsTheInitialDigest : Obligations.InitHLoadsTheInitialDigest := by
  unfold Obligations.InitHLoadsTheInitialDigest
  intro s hphase
  rw [exec_initH, execInitH_next]
  refine ⟨hphase, ?_⟩
  rw [IV_eq_printed, State.setPHASE_def, State.setJ_def, State.setH_def]

/-- Settles O20: the eight words of H stand in the working variables in order. -/
theorem cinitCopiesTheDigest : Obligations.CinitCopiesTheDigest := by
  unfold Obligations.CinitCopiesTheDigest
  intro s hphase
  rw [exec_cinit, execCinit_next]
  refine ⟨hphase, ?_⟩
  rw [Vars.ofDigest, State.setPHASE_def, State.setT_def, State.setVars_def]

/-- Settles O21: below 64 the round's constant and word are those of index `t`, addition being that of words. -/
theorem roundMixesTheVariables : Obligations.RoundMixesTheVariables := by
  unfold Obligations.RoundMixesTheVariables
  intro s ht hphase
  rw [exec_round, execRound_next]
  refine ⟨hphase, Nat.lt_succ_of_le ht, ?_⟩
  rw [phaseAfterRound_eq, State.setT_def, State.setPHASE_def, State.setVars_def]
  simp only [roundVars, roundT1, roundT2, ADD32]

/-- Settles O22: FOLD adds word by word, and its two exits are decided by `j + 1` and N as numbers. -/
theorem foldAddsIntoTheDigest : Obligations.FoldAddsIntoTheDigest := by
  unfold Obligations.FoldAddsIntoTheDigest
  intro s hphase
  rw [exec_fold, execFold_next]
  refine ⟨hphase, ?_⟩
  rw [foldedDigest_eq_words, phaseAfterFold, blockAfterFold, State.setJ_def, State.setPHASE_def, State.setH_def]

/-- Settles O51: in the order `h` to `a` each assignment reads only variables that no earlier one has written, so both
forms evaluate to the same eight words. -/
theorem sequentialRoundAgrees : Obligations.SequentialRoundAgrees := by
  unfold Obligations.SequentialRoundAgrees
  intro v k w
  rfl

end Sys2Proof.Machine

/-! PROOFS. The digest formatter (45_formatter): the character of four bits as a number, the string character by
character, and that the string determines the digest. -/

namespace Sys2Proof.Machine

/-! ## The character of four bits (40_primitives R125) -/

theorem HEXCHAR_toNat (n : BitVec 4) :
    (HEXCHAR n).toNat = if n.toNat ≤ 9 then 0x30 + n.toNat else 0x57 + n.toNat := by
  have hn := n.isLt
  rw [HEXCHAR, apply_ite BitVec.toNat]
  simp only [BitVec.toNat_add, BitVec.toNat_setWidth, BitVec.toNat_ofNat]
  split_ifs
  · omega
  · omega

/-- Digits and letters have separate codes, each rising with the value (30_encoding R91). -/
theorem HEXCHAR_injective : Function.Injective HEXCHAR := by
  intro n n' h
  have hcode := congrArg BitVec.toNat h
  rw [HEXCHAR_toNat, HEXCHAR_toNat] at hcode
  apply BitVec.eq_of_toNat_eq
  have hn := n.isLt
  have hn' := n'.isLt
  split_ifs at hcode <;> omega

theorem HEXCHAR_isLowerHex (n : BitVec 4) :
    (0x30 ≤ (HEXCHAR n).toNat ∧ (HEXCHAR n).toNat ≤ 0x39) ∨ (0x61 ≤ (HEXCHAR n).toNat ∧ (HEXCHAR n).toNat ≤ 0x66) := by
  have hn := n.isLt
  rw [HEXCHAR_toNat]
  split_ifs with h
  · exact .inl (by omega)
  · exact .inr (by omega)

/-! ## The string of a digest (45_formatter R221) -/

theorem digestString_getElem (H : Vector Word 8) (i m : Fin 8) :
    (digestString H)[8 * i.val + m.val] = HEXCHAR (nibble H[i] m.val) := by
  have hword : (8 * i.val + m.val) / 8 = i.val := by omega
  have hdigit : (8 * i.val + m.val) % 8 = m.val := by omega
  simp only [digestString, Vector.getElem_ofFn, hword, hdigit, Fin.getElem_fin]

theorem digestString_toList_words (H : Vector Word 8) :
    (digestString H).toList = HEX8 H[0] ++ HEX8 H[1] ++ HEX8 H[2] ++ HEX8 H[3] ++ HEX8 H[4] ++ HEX8 H[5] ++
      HEX8 H[6] ++ HEX8 H[7] := by
  rw [digestString_toList, toList_eq_ofFn]
  simp [List.ofFn_succ]

/-- The eight digits cover the word: bit `k` is bit `k % 4` of digit `7 - k / 4`. -/
theorem eq_of_nibble_eq {x y : Word} (h : ∀ m : Fin 8, nibble x m.val = nibble y m.val) : x = y := by
  apply BitVec.eq_of_getLsbD_eq
  intro k hk
  have hbit (z : Word) : (nibble z (7 - k / 4)).getLsbD (k % 4) = z.getLsbD k := by
    have hpos : 28 - 4 * (7 - k / 4) + k % 4 = k := by omega
    have hr : k % 4 < 4 := by omega
    simp only [nibble, BitVec.getLsbD_extractLsb', hpos, hr, decide_true, Bool.true_and]
  rw [← hbit x, ← hbit y, h ⟨7 - k / 4, by omega⟩]

/-- The characters of a string give back every digit of every word (45_formatter R222). -/
theorem digestString_injective : Function.Injective digestString := by
  intro H H' h
  apply Vector.ext
  intro i hi
  refine eq_of_nibble_eq fun m => HEXCHAR_injective ?_
  calc HEXCHAR (nibble H[i] m.val)
      = (digestString H)[8 * i + m.val] := (digestString_getElem H ⟨i, hi⟩ m).symm
    _ = (digestString H')[8 * i + m.val] := by rw [h]
    _ = HEXCHAR (nibble H'[i] m.val) := digestString_getElem H' ⟨i, hi⟩ m

/-! ## The obligations -/

/-- Settles O23: FMT writes `digestString`, which is known as a list and character by character. -/
theorem fmtRendersTheDigest : Obligations.FmtRendersTheDigest := by
  unfold Obligations.FmtRendersTheDigest
  intro s hphase
  refine ⟨digestString s.H, ?_, digestString_toList_words s.H, digestString_getElem s.H⟩
  rw [exec_fmt, execFmt_next]
  refine ⟨hphase, ?_⟩
  rw [State.setPHASE_def, State.setHEX_def]

/-- Settles O46: every character is the HEXCHAR of one digit, and both HEXCHAR and the string are one-to-one. -/
theorem digestStringIsFaithful : Obligations.DigestStringIsFaithful := by
  unfold Obligations.DigestStringIsFaithful
  refine ⟨digestString_getElem, fun H i => ?_, fun H H' => digestString_injective.eq_iff,
    fun n => ⟨fun h => ?_, fun h => ?_⟩⟩
  · rw [Fin.getElem_fin, digestString, Vector.getElem_ofFn]
    exact HEXCHAR_isLowerHex _
  · rw [HEXCHAR_toNat, if_pos h]
  · rw [HEXCHAR_toNat, if_neg (Nat.not_le.mpr h)]

end Sys2Proof.Machine

/-! PROOFS. HASH (46_hash_operation): the operations outside and inside their phases, the transition table, the value an
invocation ends with, its expansion performed operation by operation, and the count of its steps. -/

namespace Sys2Proof.Machine

/-! ## Outside its phase an operation stops (R235, R236) -/

/-- An operation with a code is enabled in the phase of that code only. -/
theorem exec_eq_whenEnabled {i : Instr} {c : BitVec 4} (h : encode i = some c) (s : State) :
    ∃ r, exec i s = s.whenEnabled c r := by
  cases i with
  | start => cases h
  | hash arg => cases h
  | check => cases h; exact ⟨_, rfl⟩
  | pad => cases h; exact ⟨_, rfl⟩
  | initH => cases h; exact ⟨_, rfl⟩
  | loadblk => cases h; exact ⟨_, rfl⟩
  | schedLd => cases h; exact ⟨_, rfl⟩
  | schedEx => cases h; exact ⟨_, rfl⟩
  | cinit => cases h; exact ⟨_, rfl⟩
  | round => cases h; exact ⟨_, rfl⟩
  | fold => cases h; exact ⟨_, rfl⟩
  | fmt => cases h; exact ⟨_, rfl⟩

theorem State.isResting_eq_false {s : State} (hidle : s.PHASE ≠ Phase.idle) (hdone : s.PHASE ≠ Phase.done)
    (hfault : s.PHASE ≠ Phase.fault) : s.isResting = false := by
  rw [Bool.eq_false_iff, Ne, State.isResting_iff]
  exact not_or.mpr ⟨hidle, not_or.mpr ⟨hdone, hfault⟩⟩

/-- In a resting phase a host move that waits for one is taken (log 5). -/
theorem step_of_resting {s : State} {m : HostMove} {rest : List HostMove} (hr : s.isResting = true)
    (hhost : s.host = m :: rest) (hm : m.actsWhileBusy = false) : step s = hostStep s := by
  rw [step, stepOnce]
  split
  next hreset => rw [hhost] at hreset; cases hreset; cases hm
  next hwait => rw [hhost] at hwait; cases hwait; cases hm
  next => rw [if_pos hr]

/-! ## The rows of the transition table (R236) -/

/-- The two rows of a counted loop, `c` again below the last index `n` and `d` after it, from the phase as an if. -/
theorem lt_or_eq_of_loop {k n : Nat} {p c d : BitVec 4} (hk : k ≤ n) (hp : p = if k = n then d else c) :
    (k < n ∧ p = c) ∨ (k = n ∧ p = d) := by
  rcases Nat.lt_or_eq_of_le hk with hlt | heq
  · exact .inl ⟨hlt, hp.trans (if_neg hlt.ne)⟩
  · exact .inr ⟨heq, hp.trans (if_pos heq)⟩

/-- Every operation but HASH that completes makes the transition of its row. -/
theorem exec_allowedTransition {i : Instr} {s t : State} (h : exec i s = .next t) (hi : ∀ arg, i ≠ .hash arg) :
    allowedTransition i s t := by
  cases i with
  | hash arg => exact absurd rfl (hi arg)
  | start => obtain ⟨hr, rfl⟩ := execStart_next.mp h; simp [allowedTransition, hr]
  | check =>
    obtain ⟨hp, ⟨hA, rfl⟩ | ⟨hA, hl, rfl⟩⟩ := execCheck_next.mp h
    · simp [allowedTransition, hp, hA]
    · simp [allowedTransition, hp, hA, hl]
  | pad => obtain ⟨hp, msg, -, -, rfl⟩ := execPad_next.mp h; simp [allowedTransition, hp]
  | initH => obtain ⟨hp, rfl⟩ := execInitH_next.mp h; simp [allowedTransition, hp]
  | loadblk => obtain ⟨hp, -, rfl⟩ := execLoadblk_next.mp h; simp [allowedTransition, hp]
  | schedLd =>
    obtain ⟨hp, ht, rfl⟩ := execSchedLd_next.mp h
    exact ⟨hp, by simp, by simp, index_succ_toNat (by omega),
      lt_or_eq_of_loop (by omega) (phaseAfterLoad_eq s.t)⟩
  | schedEx =>
    obtain ⟨hp, ht, rfl⟩ := execSchedEx_next.mp h
    exact ⟨hp, by simp, by simp, index_succ_toNat (by omega),
      lt_or_eq_of_loop (by omega) (phaseAfterExpand_eq s.t)⟩
  | cinit => obtain ⟨hp, rfl⟩ := execCinit_next.mp h; simp [allowedTransition, hp]
  | round =>
    obtain ⟨hp, ht, rfl⟩ := execRound_next.mp h
    exact ⟨hp, by simp, by simp, index_succ_toNat (by omega),
      lt_or_eq_of_loop (by omega) (phaseAfterRound_eq s.t)⟩
  | fold =>
    obtain ⟨hp, rfl⟩ := execFold_next.mp h
    refine ⟨hp, by simp, by simp, fun hnext => ⟨?_, ?_⟩, fun hlast => ⟨?_, ?_⟩⟩
    · exact if_neg hnext.ne
    · exact blockAfterFold_toNat hnext
    · exact if_pos hlast
    · exact if_neg hlast.not_lt
  | fmt => obtain ⟨hp, rfl⟩ := execFmt_next.mp h; simp [allowedTransition, hp]

/-! ## The value of an invocation (R249) -/

/-- CHECK, PAD and INIT_H of an operand within the limit (R237 to R239), from CHECK on. -/
theorem runOperations_check_pad_initH {s : State} {msg : List Byte} (hp : s.PHASE = Phase.check)
    (hA : s.ARG = .byteSeq msg) (hl : msg.length ≤ Config.maxLen) :
    runOperations 3 s = .next (((((((s.setPHASE Phase.pad).setPM (Memory.ofBytes (paddedMessage msg))).setN
      (BitVec.ofNat 56 (blockCount msg.length))).setPHASE Phase.initH).setH Config.IV).setJ 0#56).setPHASE
        Phase.loadblk) := by
  have hcheck : enabledOperation s = .next (s.setPHASE Phase.pad) := by
    rw [enabledOperation_of_check hp, execCheck_next]
    exact ⟨hp, .inr ⟨by rw [hA]; rfl, by rw [State.len, hA]; exact hl, rfl⟩⟩
  have hpad : enabledOperation (s.setPHASE Phase.pad) =
      .next ((((s.setPHASE Phase.pad).setPM (Memory.ofBytes (paddedMessage msg))).setN
        (BitVec.ofNat 56 (blockCount msg.length))).setPHASE Phase.initH) := by
    rw [enabledOperation_of_pad (by simp), execPad_next]
    exact ⟨by simp, msg, by simpa using hA, hl, by rw [paddedMessage_length_div]⟩
  rw [runOperations_succ 2 hcheck, runOperations_succ 1 hpad]
  exact runOperations_succ 0 (by rw [enabledOperation_of_initH (by simp), execInitH_next]; exact ⟨by simp, rfl⟩)

/-- From CHECK with an operand within the limit, `131N + 4` operations end in DONE with the value of the pure function
(R249, R251). -/
theorem runOperations_hash {s : State} {msg : List Byte} (hp : s.PHASE = Phase.check) (hA : s.ARG = .byteSeq msg)
    (hl : msg.length ≤ Config.maxLen) :
    ∃ t, runOperations (131 * blockCount msg.length + 4) s = .next t ∧ t.PHASE = Phase.done ∧ t.ERR = s.ERR ∧
      t.HEX.toList = functionalHash msg ∧ t.H = functionalDigest msg ∧ t.N.toNat = blockCount msg.length ∧
      t.ARG = .byteSeq msg ∧ t.host = s.host := by
  have hloadblk := runOperations_check_pad_initH hp hA hl
  generalize hu : State.setPHASE _ Phase.loadblk = u at hloadblk
  have hN : u.N.toNat = blockCount msg.length := by simp [← hu, ofNat_blockCount_toNat hl]
  obtain ⟨v, hblocks, hpv, hHv, -, hNv, -, hERRv, hARGv, hhostv⟩ :=
    runOperations_blocks ((msg.length + 8) / 64) (s := u) (msg := msg) (by simp [← hu]) (by simp [← hu, hA]) hl
      (by simp [← hu]) hN (by rw [hN, blockCount]; simp [← hu])
  have hdigest : v.H = functionalDigest msg := by
    rw [hHv, functionalDigest, functionalBlocks, paddedMessage_length_div, List.range_eq_range']
    simp [← hu, blockCount]
  have hfmt : enabledOperation v = .next ((v.setHEX (digestString v.H)).setPHASE Phase.done) := by
    rw [enabledOperation_of_fmt hpv, execFmt_next]
    exact ⟨hpv, rfl⟩
  refine ⟨(v.setHEX (digestString v.H)).setPHASE Phase.done, ?_, State.setPHASE_PHASE _ _, ?_, ?_, ?_, ?_, ?_, ?_⟩
  · rw [show 131 * blockCount msg.length + 4 = 3 + (131 * ((msg.length + 8) / 64 + 1) + 1) by rw [blockCount]; omega,
      runOperations_add _ hloadblk, runOperations_add 1 hblocks, runOperations_succ 0 hfmt, runOperations_zero]
  · simp [hERRv, ← hu]
  · rw [State.setPHASE_HEX, State.setHEX_HEX, digestString_toList, hdigest, functionalHash]
  · rw [State.setPHASE_H, State.setHEX_H, hdigest]
  · simpa [hNv] using hN
  · simp [hARGv, ← hu, hA]
  · simp [hhostv, ← hu]

/-- CHECK of an operand that is no byte sequence ends the invocation (R237, R248). -/
theorem execHash_notByteSeq {s : State} (hr : s.isResting = true) :
    execHash .notByteSeq s = .next (s.setARG .notByteSeq).startCommand.raiseInvalidArgument := by
  rw [execHash_next]
  refine ⟨hr, runOperations_succ 0 ?_⟩
  rw [enabledOperation_of_check (by simp), execCheck_next]
  exact ⟨by simp, .inl ⟨rfl, rfl⟩⟩

/-! ## Operations performed in turn (R236, R248) -/

/-- Each instruction of the list is the engine's enabled operation when its turn comes, and what the last one leaves
satisfies `Q`. An operation that stops leaves nothing to show. -/
def EnabledInTurn : List Instr → (State → Prop) → State → Prop
  | [], Q, s => Q s
  | i :: is, Q, s => encode i = some s.PHASE ∧ ∀ t, exec i s = .next t → EnabledInTurn is Q t

theorem enabledInTurn_append (is js : List Instr) (Q : State → Prop) (s : State) :
    EnabledInTurn (is ++ js) Q s ↔ EnabledInTurn is (EnabledInTurn js Q) s := by
  induction is generalizing s with
  | nil => rfl
  | cons i is ih => simp only [List.cons_append, EnabledInTurn, ih]

theorem enabledOperation_of_encode {i : Instr} {s : State} (h : encode i = some s.PHASE) :
    enabledOperation s = exec i s := by
  rw [enabledOperation_eq_engineStep, engineStep_of_decodeCode ((decodeCode_eq_ok_iff _ _).mpr h)]

theorem isResting_eq_false_of_encode {i : Instr} {s : State} (h : encode i = some s.PHASE) : s.isResting = false :=
  isResting_eq_false_of_decodeCode (by rw [(decodeCode_eq_ok_iff _ _).mpr h]; nofun)

/-- Operations that are enabled in turn are the engine's own run, stops included. -/
theorem performAll_eq_runOperations {is : List Instr} {Q : State → Prop} {s : State} (h : EnabledInTurn is Q s) :
    performAll is s = runOperations is.length s := by
  induction is generalizing s with
  | nil => rfl
  | cons i is ih =>
    obtain ⟨henc, hrest⟩ := h
    rw [performAll, List.length_cons, runOperations, enabledOperation_of_encode henc]
    cases hexec : exec i s with
    | next t => exact ih (hrest t hexec)
    | fault r => rfl
    | refused r => rfl

/-- A run that completes is busy at every smaller count of operations. -/
theorem runOperations_busy_of_lt {is : List Instr} {Q : State → Prop} {s t : State} (h : EnabledInTurn is Q s)
    (hrun : runOperations is.length s = .next t) {k : Nat} (hk : k < is.length) :
    ∃ u, runOperations k s = .next u ∧ u.isResting = false := by
  induction is generalizing s k with
  | nil => cases hk
  | cons i is ih =>
    obtain ⟨henc, hrest⟩ := h
    cases k with
    | zero => exact ⟨s, rfl, isResting_eq_false_of_encode henc⟩
    | succ k =>
      rw [List.length_cons, runOperations, enabledOperation_of_encode henc] at hrun
      rw [runOperations, enabledOperation_of_encode henc]
      cases hexec : exec i s with
      | next u => rw [hexec] at hrun; exact ih (hrest u hexec) hrun (Nat.lt_of_succ_lt_succ hk)
      | fault r => rw [hexec] at hrun; cases hrun
      | refused r => rw [hexec] at hrun; cases hrun

/-! ## The operations after START are enabled in turn -/

/-- Phase and counters, as the rows of the transition table speak of them. -/
structure State.At (s : State) (p : BitVec 4) (k : Nat) (j N : BitVec 56) : Prop where
  PHASE : s.PHASE = p
  t : s.t.toNat = k
  j : s.j = j
  N : s.N = N

/-- A counted loop of the sequencer (R253): the passes of `i` in phase `c` up to the index `n`, then phase `d`. -/
theorem enabledInTurn_loop {i : Instr} {c d : BitVec 4} {n : Nat} {Q : State → Prop} {j N : BitVec 56}
    (hi : encode i = some c)
    (hrow : ∀ s t, exec i s = .next t → s.PHASE = c ∧ t.j = s.j ∧ t.N = s.N ∧ t.t.toNat = s.t.toNat + 1 ∧
      ((s.t.toNat < n ∧ t.PHASE = c) ∨ (s.t.toNat = n ∧ t.PHASE = d)))
    (hQ : ∀ u : State, u.At d (n + 1) j N → Q u) (m : Nat) {s : State} {k : Nat} (hs : s.At c k j N) (hk : k + m = n) :
    EnabledInTurn (List.replicate (m + 1) i) Q s := by
  induction m generalizing s k with
  | zero =>
    refine ⟨by rw [hi, hs.PHASE], fun t h => hQ t ?_⟩
    obtain ⟨-, hj, hN, ht, ⟨hlt, -⟩ | ⟨heq, hp⟩⟩ := hrow s t h
    · have := hs.t; omega
    · exact ⟨hp, by omega, hj.trans hs.j, hN.trans hs.N⟩
  | succ m ih =>
    refine ⟨by rw [hi, hs.PHASE], fun t h => ?_⟩
    obtain ⟨-, hj, hN, ht, ⟨hlt, hp⟩ | ⟨heq, -⟩⟩ := hrow s t h
    · exact ih (k := k + 1) ⟨hp, by rw [ht, hs.t], hj.trans hs.j, hN.trans hs.N⟩ (by omega)
    · have := hs.t; omega

/-- The 131 operations of a block (R248). -/
def blockOperations : List Instr :=
  [Instr.loadblk] ++ List.replicate 16 Instr.schedLd ++ List.replicate 48 Instr.schedEx ++ [Instr.cinit] ++
    List.replicate 64 Instr.round ++ [Instr.fold]

/-- The operations of the block at `j < N` are enabled in turn, up to LOADBLK of the next block or FMT. -/
theorem enabledInTurn_blockOperations {Q : State → Prop} {s : State} (hp : s.PHASE = Phase.loadblk)
    (hnext : s.j.toNat + 1 < s.N.toNat →
      ∀ u : State, u.PHASE = Phase.loadblk → u.j.toNat = s.j.toNat + 1 → u.N = s.N → Q u)
    (hlast : s.j.toNat + 1 = s.N.toNat → ∀ u : State, u.PHASE = Phase.fmt → Q u) (hj : s.j.toNat < s.N.toNat) :
    EnabledInTurn blockOperations Q s := by
  simp only [blockOperations, enabledInTurn_append]
  refine ⟨by rw [hp]; rfl, fun s₁ h₁ => ?_⟩
  obtain ⟨-, hp₁, ht₁, hj₁, hN₁⟩ := exec_allowedTransition h₁ nofun
  refine enabledInTurn_loop (i := .schedLd) (n := 15) rfl (fun _ _ h => exec_allowedTransition h nofun)
    (fun s₂ h₂ => ?_) 15 ⟨hp₁, congrArg BitVec.toNat ht₁, hj₁, hN₁⟩ rfl
  refine enabledInTurn_loop (i := .schedEx) (n := 63) rfl (fun _ _ h => exec_allowedTransition h nofun)
    (fun s₃ h₃ => ?_) 47 h₂ rfl
  refine ⟨by rw [h₃.PHASE]; rfl, fun s₄ h₄ => ?_⟩
  obtain ⟨-, hp₄, ht₄, hj₄, hN₄⟩ := exec_allowedTransition h₄ nofun
  refine enabledInTurn_loop (i := .round) (n := 63) rfl (fun _ _ h => exec_allowedTransition h nofun)
    (fun s₅ h₅ => ?_) 63 ⟨hp₄, congrArg BitVec.toNat ht₄, hj₄.trans h₃.j, hN₄.trans h₃.N⟩ rfl
  refine ⟨by rw [h₅.PHASE]; rfl, fun t h => ?_⟩
  obtain ⟨-, -, hN, hnext', hlast'⟩ := exec_allowedTransition h nofun
  rw [h₅.j, h₅.N] at hnext' hlast'
  rcases Nat.lt_or_eq_of_le (Nat.succ_le_of_lt hj) with hlt | heq
  · exact hnext hlt t (hnext' hlt).1 (hnext' hlt).2 (hN.trans h₅.N)
  · exact hlast heq t (hlast' heq).1

/-- So are those of the blocks that remain, `k` after the one at `j`, up to FMT. -/
theorem enabledInTurn_blocks {Q : State → Prop} (hQ : ∀ u : State, u.PHASE = Phase.fmt → Q u) (k : Nat) {s : State}
    (hp : s.PHASE = Phase.loadblk) (hj : s.j.toNat + (k + 1) = s.N.toNat) :
    EnabledInTurn (List.replicate (k + 1) blockOperations).flatten Q s := by
  induction k generalizing s with
  | zero =>
    rw [List.replicate_succ, List.flatten_cons, enabledInTurn_append]
    exact enabledInTurn_blockOperations hp (fun h => absurd h (by omega)) (fun _ => hQ) (by omega)
  | succ k ih =>
    rw [List.replicate_succ, List.flatten_cons, enabledInTurn_append]
    refine enabledInTurn_blockOperations hp (fun _ u hpu hju hNu => ?_) (fun h => absurd h (by omega)) (by omega)
    exact ih hpu (by rw [hju, hNu]; omega)

/-- The engine operations of an invocation, those after START (R248). -/
def engineOperations : Arg → List Instr
  | .byteSeq msg =>
    .check :: .pad :: .initH :: ((List.replicate (blockCount msg.length) blockOperations).flatten ++ [.fmt])
  | .notByteSeq => [.check]

theorem hashExpansion_eq_cons (arg : Arg) : hashExpansion arg = .start :: engineOperations arg := by
  cases arg with
  | notByteSeq => rfl
  | byteSeq msg =>
    rw [hashExpansion, engineOperations, List.flatMap_def, List.map_const', List.length_range]
    rfl

theorem engineOperations_length (arg : Arg) : (engineOperations arg).length = operationCount arg := by
  cases arg with
  | notByteSeq => rfl
  | byteSeq msg =>
    have hblock : blockOperations.length = 131 := rfl
    simp only [engineOperations, operationCount, List.length_append, List.length_flatten, List.map_replicate,
      List.sum_replicate, hblock, smul_eq_mul, List.length_cons, List.length_nil]
    omega

theorem enabledInTurn_fmt {s : State} (hp : s.PHASE = Phase.fmt) :
    EnabledInTurn [.fmt] (fun u => u.isResting = true) s := by
  refine ⟨by rw [hp]; rfl, fun t h => ?_⟩
  obtain ⟨-, rfl⟩ := execFmt_next.mp h
  rfl

/-- From CHECK on the engine operations of the operand are enabled in turn, and the last one leaves the engine at
rest. -/
theorem enabledInTurn_engineOperations {s : State} (hp : s.PHASE = Phase.check) :
    EnabledInTurn (engineOperations s.ARG) (fun u => u.isResting = true) s := by
  cases hA : s.ARG with
  | notByteSeq =>
    refine ⟨by rw [hp]; rfl, fun t h => ?_⟩
    obtain ⟨-, ⟨-, rfl⟩ | ⟨hbytes, -⟩⟩ := execCheck_next.mp h
    · rfl
    · rw [hA] at hbytes; cases hbytes
  | byteSeq msg =>
    refine ⟨by rw [hp]; rfl, fun s₁ h₁ => ?_⟩
    obtain ⟨-, ⟨hbytes, -⟩ | ⟨-, hl, rfl⟩⟩ := execCheck_next.mp h₁
    · rw [hA] at hbytes; cases hbytes
    rw [State.len, hA, argBytes] at hl
    refine ⟨rfl, fun s₂ h₂ => ?_⟩
    obtain ⟨-, msg', hA', -, rfl⟩ := execPad_next.mp h₂
    obtain rfl : msg = msg' := Arg.byteSeq.inj (hA.symm.trans hA')
    refine ⟨rfl, fun s₃ h₃ => ?_⟩
    obtain ⟨-, rfl⟩ := execInitH_next.mp h₃
    rw [enabledInTurn_append]
    refine enabledInTurn_blocks (fun u hpu => enabledInTurn_fmt hpu) ((msg.length + 8) / 64) rfl ?_
    simpa [paddedMessage_length_div, blockCount] using (ofNat_blockCount_toNat hl).symm

/-! ## The obligations -/

/-- Settles O26: START clears ERR, and the operations of the invocation end with the value of the pure function. -/
theorem hashComputesTheFunction : Obligations.HashComputesTheFunction := by
  unfold Obligations.HashComputesTheFunction
  intro s msg hr hl
  obtain ⟨t, hrun, hdone, hERR, hHEX, hH, hN, hARG, hhost⟩ :=
    runOperations_hash (s := (s.setARG (.byteSeq msg)).startCommand) rfl rfl hl
  exact ⟨t, execHash_next.mpr ⟨State.isResting_iff.mpr hr, hrun⟩, hdone, hERR, hHEX, hH, hN, hARG, hhost⟩

/-- Settles O28: after START each operation of the expansion is the enabled one when its turn comes, and there are as
many as HASH performs. -/
theorem hashPerformsItsExpansion : Obligations.HashPerformsItsExpansion := by
  unfold Obligations.HashPerformsItsExpansion
  refine ⟨fun s arg => ?_, fun msg => ?_⟩
  · rw [hashExpansion_eq_cons, exec_hash, execHash, ← engineOperations_length, ← State.setARG_def, performAll,
      exec_start, execStart]
    cases hr : s.isResting with
    | false => rw [State.whenResting_neg hr, State.whenResting_neg (s := s.setARG arg) hr]
    | true =>
      rw [State.whenResting_pos hr, State.whenResting_pos (s := s.setARG arg) hr]
      exact performAll_eq_runOperations (enabledInTurn_engineOperations (s := (s.setARG arg).startCommand) rfl)
  · rw [hashExpansion_eq_cons, List.length_cons, engineOperations_length, operationCount, Nat.add_comm]

/-- Settles O30: with no host move to come the steps are the engine's operations, each enabled when its turn comes. -/
theorem startedEngineFinishesOnCount : Obligations.StartedEngineFinishesOnCount := by
  unfold Obligations.StartedEngineFinishesOnCount
  intro s msg hp hhost hA hl
  obtain ⟨t, hrun, hdone, -, hHEX, -⟩ := runOperations_hash hp hA hl
  have hcount : (engineOperations s.ARG).length = 131 * blockCount msg.length + 4 := by
    rw [engineOperations_length, hA, operationCount]
  refine ⟨⟨t, (core_run_eq_runOperations _ hhost).trans hrun, hdone, hHEX⟩, fun k hk => ?_⟩
  rw [← hcount] at hrun hk
  obtain ⟨u, hu, hbusy⟩ := runOperations_busy_of_lt (enabledInTurn_engineOperations hp) hrun hk
  exact ⟨u, (core_run_eq_runOperations k hhost).trans hu, hbusy⟩

/-- Settles O27: at rest CHECK decides, and while the engine is busy HASH, like START, is not accepted. -/
theorem hashOfARejectedOperand : Obligations.HashOfARejectedOperand := by
  unfold Obligations.HashOfARejectedOperand
  intro s
  refine ⟨fun hr => ?_, fun hidle hdone hfault arg => ?_⟩
  · rw [← State.isResting_iff] at hr
    refine ⟨?_, fun msg hl => ?_⟩
    · rw [exec_hash, execHash_notByteSeq hr]
      rfl
    · rw [exec_hash, execHash_of_maxLen_lt hr hl]
  · rw [exec_hash, execHash]
    exact State.whenResting_neg (State.isResting_eq_false hidle hdone hfault)

/-- Settles O40: each operation makes the transition of its row, and HASH ends where its operand leads. -/
theorem operationsFollowTheTransitionTable : Obligations.OperationsFollowTheTransitionTable := by
  unfold Obligations.OperationsFollowTheTransitionTable
  intro i s t h
  by_cases hi : ∀ arg, i ≠ .hash arg
  · exact exec_allowedTransition h hi
  · obtain ⟨arg, rfl⟩ : ∃ arg, i = .hash arg := by simpa using hi
    rw [exec_hash] at h
    obtain ⟨hr, hrun⟩ := execHash_next.mp h
    cases arg with
    | notByteSeq =>
      obtain rfl := next_eq_next_iff.mp ((execHash_notByteSeq hr).symm.trans h)
      exact ⟨hr, .inr ⟨rfl, rfl⟩⟩
    | byteSeq msg =>
      rcases Nat.lt_or_ge Config.maxLen msg.length with hl | hl
      · rw [execHash_of_maxLen_lt hr hl] at h
        cases h
      · obtain ⟨u, hu, hdone, -⟩ := runOperations_hash (s := (s.setARG (.byteSeq msg)).startCommand) rfl rfl hl
        obtain rfl := next_eq_next_iff.mp (hu.symm.trans hrun)
        exact ⟨hr, .inl ⟨hdone, rfl, decide_eq_true hl⟩⟩

/-- Settles O3: a phase that names an operation is busy, so the step is the engine's, which performs it. -/
theorem stepPerformsTheEnabledOperation : Obligations.StepPerformsTheEnabledOperation := by
  unfold Obligations.StepPerformsTheEnabledOperation
  intro s i hi
  refine ⟨fun hwaits => ?_, fun rest hhost => ?_⟩
  · rw [step_of_busy (isResting_eq_false_of_decodeCode (by rw [hi]; nofun)) hwaits, engineStep_of_decodeCode hi]
  · rw [step_of_wait hhost, ← State.setHost_def]
    exact engineStep_of_decodeCode (s := s.setHost rest) hi

/-- Settles O5: with no host move to come the step is the engine's, which waits at rest. -/
theorem restingEngineWaits : Obligations.RestingEngineWaits := by
  unfold Obligations.RestingEngineWaits
  intro s hr hhost
  rw [step_of_host_nil hhost, engineStep_of_isResting (State.isResting_iff.mpr hr)]

/-- Settles O7: at rest the step is the host's, which takes the first of its moves. -/
theorem hostMovesAreTakenAtRest : Obligations.HostMovesAreTakenAtRest := by
  unfold Obligations.HostMovesAreTakenAtRest
  intro s rest hr
  rw [← State.isResting_iff] at hr
  refine ⟨fun arg hhost => ?_, fun hhost => ?_, fun arg hhost => ?_⟩
  · rw [step_of_resting hr hhost rfl, hostStep, hhost]
    rfl
  · rw [step_of_resting hr hhost rfl, hostStep, hhost]
    exact execStart_next.mpr ⟨hr, rfl⟩
  · rw [step_of_resting hr hhost rfl, hostStep, hhost]
    rfl

/-- Settles O10: START is a host command, accepted at rest. -/
theorem startEntersCheck : Obligations.StartEntersCheck := by
  unfold Obligations.StartEntersCheck
  intro s
  refine ⟨fun hr => ?_, fun hidle hdone hfault => ?_⟩
  · exact execStart_next.mpr ⟨State.isResting_iff.mpr hr, rfl⟩
  · exact State.whenResting_neg (State.isResting_eq_false hidle hdone hfault)

/-- Settles O11: the type check comes first, the length limit second. -/
theorem checkRejectsOrAccepts : Obligations.CheckRejectsOrAccepts := by
  unfold Obligations.CheckRejectsOrAccepts
  intro s hp
  refine ⟨fun hA => ?_, fun msg hA hl => ?_, fun msg hA hl => ?_⟩
  · exact execCheck_next.mpr ⟨hp, .inl ⟨by rw [hA]; rfl, rfl⟩⟩
  · rw [exec_check, execCheck, State.whenEnabled_pos hp, State.len, hA]
    exact if_pos hl
  · exact execCheck_next.mpr ⟨hp, .inr ⟨by rw [hA]; rfl, by rw [State.len, hA]; exact hl, rfl⟩⟩

/-- Settles O24: an operation with a code is gated by the phase of that code. -/
theorem operationsStopOutsideTheirPhase : Obligations.OperationsStopOutsideTheirPhase := by
  unfold Obligations.OperationsStopOutsideTheirPhase
  intro i c s henc hp
  obtain ⟨r, hr⟩ := exec_eq_whenEnabled henc s
  rw [hr, State.whenEnabled_neg hp]

end Sys2Proof.Machine

/-! PROOFS. The one exception (60_exceptions R270 to R275): who takes it, and that a legal state with an operand within
the limit never stops. -/

namespace Sys2Proof.Machine

/-! ## Who takes the exception -/

theorem argIsByteSeq_eq_false_iff {arg : Arg} : argIsByteSeq arg = false ↔ arg = .notByteSeq := by
  cases arg <;> simp [argIsByteSeq]

/-- No row of the transition table but that of CHECK ends in FAULT (46_hash_operation R236). -/
theorem exec_PHASE_ne_fault {i : Instr} {s t : State} (h : exec i s = .next t) (hi : ∀ arg, i ≠ .hash arg)
    (hcheck : i ≠ .check) : t.PHASE ≠ Phase.fault := by
  have hrow := exec_allowedTransition h hi
  cases i with
  | hash arg => exact absurd rfl (hi arg)
  | check => exact absurd rfl hcheck
  | start | pad | initH | loadblk | cinit | fmt => obtain ⟨-, hp, -⟩ := hrow; simp +decide [hp]
  | schedLd | schedEx | round =>
    obtain ⟨-, -, -, -, ⟨-, hp⟩ | ⟨-, hp⟩⟩ := hrow <;> simp +decide [hp]
  | fold =>
    obtain ⟨-, rfl⟩ := execFold_next.mp h
    simp only [State.setJ_PHASE, State.setPHASE_PHASE, phaseAfterFold]
    split <;> decide

/-- An operation other than CHECK keeps ERR or, which is START, clears it (10_state R37). -/
theorem exec_ERR_of_ne_check {i : Instr} {s t : State} (h : exec i s = .next t) (hi : ∀ arg, i ≠ .hash arg)
    (hcheck : i ≠ .check) : t.ERR = s.ERR ∨ t.ERR = 0#1 := by
  by_cases hstart : i = .start
  · subst hstart
    obtain ⟨-, rfl⟩ := execStart_next.mp h
    exact .inr (State.startCommand_ERR s)
  · exact .inl ((exec_writesOnlyItsOwn h hi).ERR hstart hcheck)

/-! ## Where nothing stops -/

/-- CHECK stops only beyond MAXLEN (46_hash_operation R237). -/
theorem exists_execCheck_eq_next {s : State} (hp : s.PHASE = Phase.check) (hl : s.ARG.withinLimit = true) :
    ∃ t, execCheck s = .next t := by
  obtain ⟨hrejects, -, haccepts⟩ := checkRejectsOrAccepts s hp
  cases hA : s.ARG with
  | notByteSeq => exact ⟨_, hrejects hA⟩
  | byteSeq msg =>
    rw [hA, Arg.withinLimit, decide_eq_true_eq] at hl
    exact ⟨_, haccepts msg hA hl⟩

/-- At rest HASH stops only beyond MAXLEN (46_hash_operation R248). -/
theorem exists_execHash_eq_next {arg : Arg} {s : State} (hr : s.isResting = true) (hl : arg.withinLimit = true) :
    ∃ t, execHash arg s = .next t := by
  cases arg with
  | notByteSeq => exact ⟨_, execHash_notByteSeq hr⟩
  | byteSeq msg =>
    rw [Arg.withinLimit, decide_eq_true_eq] at hl
    obtain ⟨t, ht, -⟩ := hashComputesTheFunction s msg (State.isResting_iff.mp hr) hl
    exact ⟨t, ht⟩

/-- PAD completes on every operand that CHECK lets through (41_padder R141). -/
theorem State.Legal.exists_execPad_eq_next {s : State} (hs : s.Legal) (hp : s.PHASE = Phase.pad) :
    ∃ t, execPad s = .next t := by
  obtain ⟨hbytes, hl⟩ := hs.accepted hp
  cases hA : s.ARG with
  | notByteSeq => rw [hA] at hbytes; cases hbytes
  | byteSeq msg =>
    rw [State.len, hA, argBytes] at hl
    exact ⟨_, execPad_next.mpr ⟨hp, msg, hA, hl, rfl⟩⟩

/-- In a legal state the operation of every phase completes: the counters are in its range, and LOADBLK finds the bytes
of its block. -/
theorem State.Legal.exists_engineStep_eq_next {s : State} (hs : s.Legal)
    (hl : s.PHASE = Phase.check → s.ARG.withinLimit = true) : ∃ t, engineStep s = .next t := by
  rw [← enabledOperation_eq_engineStep]
  rcases phase_cases s.PHASE hs.phase with hr | hp | hp | hp | hp | hp | hp | hp | hp | hp | hp
  · exact ⟨s, enabledOperation_of_isResting hr⟩
  · rw [enabledOperation_of_check hp]; exact exists_execCheck_eq_next hp (hl hp)
  · rw [enabledOperation_of_pad hp]; exact hs.exists_execPad_eq_next hp
  · rw [enabledOperation_of_initH hp]; exact ⟨_, execInitH_next.mpr ⟨hp, rfl⟩⟩
  · obtain ⟨hPM, hj⟩ := hs.block (by rw [hp]; rfl)
    rw [enabledOperation_of_loadblk hp]
    exact ⟨_, execLoadblk_next.mpr ⟨hp, hPM.firstMissing_eq_none hj, rfl⟩⟩
  · have ht := hs.loading hp
    rw [enabledOperation_of_schedLd hp]; exact ⟨_, execSchedLd_next.mpr ⟨hp, by omega, rfl⟩⟩
  · have ht := hs.expanding hp
    rw [enabledOperation_of_schedEx hp]; exact ⟨_, execSchedEx_next.mpr ⟨hp, by omega, rfl⟩⟩
  · rw [enabledOperation_of_cinit hp]; exact ⟨_, execCinit_next.mpr ⟨hp, rfl⟩⟩
  · have ht := hs.mixing hp
    rw [enabledOperation_of_round hp]; exact ⟨_, execRound_next.mpr ⟨hp, by omega, rfl⟩⟩
  · rw [enabledOperation_of_fold hp]; exact ⟨_, execFold_next.mpr ⟨hp, rfl⟩⟩
  · rw [enabledOperation_of_fmt hp]; exact ⟨_, execFmt_next.mpr ⟨hp, rfl⟩⟩

theorem HostMove.actsWhileBusy_iff {m : HostMove} : m.actsWhileBusy = true ↔ m = .wait ∨ m = .reset := by
  cases m <;> simp [HostMove.actsWhileBusy]

theorem step_of_reset {s : State} {rest : List HostMove} (h : s.host = .reset :: rest) :
    step s = .next (s.setHost rest).applyReset := by
  rw [step, stepOnce, h]

/-- At rest a host move that waits for a resting phase is taken, and only a HASH beyond MAXLEN stops (log 5). -/
theorem exists_step_eq_next_of_resting {s : State} {m : HostMove} {rest : List HostMove} (hr : s.isResting = true)
    (hhost : s.host = m :: rest) (hm : m.actsWhileBusy = false) (hhash : s.NextHashWithinLimit) :
    ∃ t, step s = .next t := by
  obtain ⟨hpresent, hstart, hhashed⟩ := hostMovesAreTakenAtRest s rest (State.isResting_iff.mp hr)
  cases m with
  | present arg => exact ⟨_, hpresent arg hhost⟩
  | start => exact ⟨_, hstart hhost⟩
  | hash arg =>
    rw [hhashed arg hhost]
    exact exists_execHash_eq_next hr (hhash arg rest hhost)
  | wait => cases hm
  | reset => cases hm

/-! ## The obligations -/

/-- Settles O44: a step is a reset, the engine's own operation, which completes in a legal state, or at rest a move of
the host, of which only HASH could stop. -/
theorem legalStatesNeverStop : Obligations.LegalStatesNeverStop := by
  unfold Obligations.LegalStatesNeverStop
  intro s hs hcheck hhash
  have hengine := hs.exists_engineStep_eq_next hcheck
  cases hhost : s.host with
  | nil => rwa [step_of_host_nil hhost]
  | cons m rest =>
    cases hm : m.actsWhileBusy with
    | true =>
      obtain rfl | rfl := HostMove.actsWhileBusy_iff.mp hm
      · rw [step_of_wait hhost]
        exact (hs.setHost rest).exists_engineStep_eq_next hcheck
      · exact ⟨_, step_of_reset hhost⟩
    | false =>
      cases hr : s.isResting with
      | true => exact exists_step_eq_next_of_resting hr hhost hm hhash
      | false => rwa [step_of_busy hr (by simpa [hhost] using hm)]

/-- Settles O41: CHECK raises the exception for an operand that is no byte sequence; any other operation ends outside
FAULT and sets no ERR. -/
theorem onlyCheckTakesTheException : Obligations.OnlyCheckTakesTheException := by
  unfold Obligations.OnlyCheckTakesTheException
  intro i s t h hi hexception
  by_cases hcheck : i = .check
  · subst hcheck
    obtain ⟨-, ⟨hA, rfl⟩ | ⟨-, -, rfl⟩⟩ := execCheck_next.mp h
    · exact ⟨rfl, argIsByteSeq_eq_false_iff.mp hA, rfl⟩
    · rcases hexception with hfault | ⟨hclear, hset⟩
      · exact absurd hfault (by simp +decide)
      · exact absurd (hclear.symm.trans hset) (by decide)
  · rcases hexception with hfault | ⟨hclear, hset⟩
    · exact absurd hfault (exec_PHASE_ne_fault h hi hcheck)
    · rcases exec_ERR_of_ne_check h hi hcheck with hkept | hzero
      · exact absurd (hclear.symm.trans (hkept.symm.trans hset)) (by decide)
      · exact absurd (hzero.symm.trans hset) (by decide)

end Sys2Proof.Machine

/-! PROOFS. Reset (70_reset_and_hazards R300): what it leaves of the elements for which 10_state R43 states a value, and
of the host's moves (log 13). -/

namespace Sys2Proof.Machine

/-! ## The state after reset -/

@[simp] theorem State.applyReset_PHASE (s : State) : s.applyReset.PHASE = Phase.idle := (rfl)
@[simp] theorem State.applyReset_ERR (s : State) : s.applyReset.ERR = 0#1 := (rfl)
@[simp] theorem State.applyReset_PM (s : State) : s.applyReset.PM = [] := (rfl)
@[simp] theorem State.applyReset_host (s : State) : s.applyReset.host = s.host := (rfl)

/-! ## The obligation -/

/-- Settles O8: a reset acts in every phase (`step_of_reset`), and the state it answers lists no byte of PM. -/
theorem resetReturnsToIdle : Obligations.ResetReturnsToIdle := by
  unfold Obligations.ResetReturnsToIdle
  intro s rest hhost
  refine ⟨(s.setHost rest).applyReset, step_of_reset hhost, State.applyReset_PHASE _, State.applyReset_ERR _,
    fun a => ?_, ?_⟩
  · rw [State.applyReset_PM, Memory.read_nil]
  · rw [State.applyReset_host, State.setHost_host]

end Sys2Proof.Machine
